-- ==== Sys2Proof/Word.lean ====
section
/-! DEFINITION. The word and byte types of the machine. A register value, an instruction word, an
effective address and an extended immediate are unsigned integers below `2^R`, where `R` is a
construction parameter (00_scope.md R14), so a word is a `Nat` and the range is an invariant of the
state (`State.Wf`); see log 8. -/

namespace Sys2Proof

/-- One byte of memory (10_state.md R28). -/
abbrev Byte := BitVec 8

/-- A value reduced to `r` bits, as every write to a register does (00_scope.md R15). -/
def Word.trunc (r v : Nat) : Nat := v % 2 ^ r

/-- `ALL1`, the all-ones word of `r` bits (00_scope.md R11). -/
def Word.allOnes (r : Nat) : Nat := 2 ^ r - 1

/-- The signed reading of an `r`-bit word: `v - 2^r` when bit `r-1` is set (00_scope.md R14). -/
def Word.signed (r : Nat) (v : Nat) : Int :=
  if v.testBit (r - 1) then (v : Int) - 2 ^ r else v

end Sys2Proof
end

