-- ==== Sys2Proof/Config.lean ====
section
/-! DEFINITION. The construction parameters, the Layout Calculator, the configuration validity check,
the named statuses, and the values the spec leaves open (00_scope.md R10 to R12, 10_state.md R19 to
R23, 60_exceptions.md R117, R118). -/

namespace Sys2Proof

/-- The three construction parameters, valid or not (00_scope.md R10, 10_state.md R19). -/
structure Params where
  /-- `INSTRUCTION_SLOTS`, the size of the opcode space. -/
  instructionSlots : Nat
  /-- `REGISTER_COUNT`. -/
  registerCount : Nat
  /-- `REGISTER_BITS`: the width of a register, of an instruction word and of an address. -/
  registerBits : Nat
  deriving DecidableEq, Repr

/-- `O`, the width of the opcode field (10_state.md R20). -/
def Params.bitsForOpcode (p : Params) : Nat := Nat.log2 p.instructionSlots

/-- `B`, the width of a register-index field (10_state.md R20). -/
def Params.bitsForRegister (p : Params) : Nat := Nat.log2 p.registerCount

/-- `P`, the number of bits below the opcode (00_scope.md R11). -/
def Params.bitsBelowOpcode (p : Params) : Nat := p.registerBits - p.bitsForOpcode

/-- `H`, half the register width (00_scope.md R11). -/
def Params.halfBits (p : Params) : Nat := p.registerBits / 2

/-- `RB`, the register width in bytes (00_scope.md R11). -/
def Params.registerBytes (p : Params) : Nat := p.registerBits / 8

/-- `MEM`, the number of bytes of memory (10_state.md R20). -/
def Params.memorySize (p : Params) : Nat := 2 ^ p.registerBits

/-- `Wm`, the width of the load and store offset field (00_scope.md R11). -/
def Params.offsetBits (p : Params) : Nat := p.bitsBelowOpcode - 2 * p.bitsForRegister

/-- `Wa`, the width of the arithmetic/shift operand field (00_scope.md R11). -/
def Params.operandBits (p : Params) : Nat := p.bitsBelowOpcode - 1 - p.bitsForRegister

/-- `Ul`, the unused low bits of `load_immediate` (00_scope.md R11). -/
def Params.loadImmUnusedBits (p : Params) : Nat :=
  p.bitsBelowOpcode - p.bitsForRegister - 1 - p.halfBits

/-- The opcode mask: all ones shifted into the opcode field and truncated to `R` bits
(10_state.md R20, R21). -/
def Params.opcodeMask (p : Params) : Nat :=
  Word.trunc p.registerBits (Word.allOnes p.registerBits <<< p.bitsBelowOpcode)

/-- The layout that the Layout Calculator derives (10_state.md R20). -/
structure Layout where
  bitsForOpcode : Nat
  bitsForRegister : Nat
  opcodeMask : Nat
  memorySize : Nat
  deriving DecidableEq, Repr

/-- The Layout Calculator: pure, a function of the configuration alone (10_state.md R20). -/
def computeLayout (p : Params) : Layout :=
  { bitsForOpcode := p.bitsForOpcode
    bitsForRegister := p.bitsForRegister
    opcodeMask := p.opcodeMask
    memorySize := p.memorySize }

/-- Configuration validity, conditions (a) to (f) of 10_state.md R22 in that order. The fit
conditions are written as sums, so that no truncated subtraction can make one true. -/
abbrev Params.Valid (p : Params) : Prop :=
  (p.instructionSlots = 2 ^ p.bitsForOpcode ∧ p.registerCount = 2 ^ p.bitsForRegister) ∧
  (0 < p.registerBits ∧ p.registerBits % 8 = 0) ∧
  16 ≤ p.instructionSlots ∧
  (p.bitsForOpcode + 2 * p.bitsForRegister + 1 ≤ p.registerBits ∧
    p.bitsForOpcode + 1 + p.bitsForRegister + max 1 p.bitsForRegister ≤ p.registerBits) ∧
  p.bitsForOpcode + p.bitsForRegister + 1 + p.registerBits / 2 ≤ p.registerBits ∧
  p.bitsForOpcode + p.bitsForRegister ≤ p.registerBits

/-- A valid configuration. The proof is part of the data: no state of the block exists for an invalid
one (10_state.md R23). -/
structure Config extends Params where
  valid : toParams.Valid
  deriving DecidableEq, Repr

/-- The default parameters, 16 opcode slots, 8 registers, 16-bit registers (00_scope.md R4, R10). -/
def defaultParams : Params :=
  { instructionSlots := 16, registerCount := 8, registerBits := 16 }

/-- The default configuration `CE-16/8/16` (00_scope.md R4, R10). -/
def defaultConfig : Config := { toParams := defaultParams, valid := by decide }

/-- The only error of construction (60_exceptions.md R116, R121). -/
inductive ConfigError where
  /-- A condition of 10_state.md R22 fails; no processor exists. -/
  | invalidConfiguration
  deriving DecidableEq, Repr

/-- The named statuses a decode or an execute transaction returns (60_exceptions.md R117). -/
inductive Status where
  /-- `OK`. -/
  | ok
  /-- `W_LAST_MEMORY_BYTE`. -/
  | lastMemoryByte
  /-- `E_DECODE_UNKNOWN`. -/
  | decodeUnknown
  /-- `E_EXEC_UNKNOWN`. -/
  | execUnknown
  /-- `E_OUT_OF_MEMORY`. -/
  | outOfMemory
  /-- `E_SHIFT_RANGE`. -/
  | shiftRange
  deriving DecidableEq, Repr

/-- FREE VALUE (log 12). What the parameter `STATUS_VALUES` leaves open for each status
(60_exceptions.md R118): `Status.value` places it in the range the status's class allows. -/
opaque Config.statusFree : Status → Nat

/-- DESIGN CHOICE (log 1), unsafe. The word every register holds at `State.reset`. The spec gives
none (10_state.md R38, INIT_REGS) and forbids zero. -/
def Config.resetRegister : Nat := 2

/-- DESIGN CHOICE (log 2), unsafe. What a byte of memory that is not listed reads as. The spec gives
none (10_state.md R38, INIT_MEM) and forbids zero. -/
def Config.fillByte : Byte := 0xA5

end Sys2Proof
end

