-- ==== Sys2Proof/Syntax.lean ====
section
/-! DEFINITION. The twelve instructions as the decoded latch holds them (10_state.md R35): the typed
operands that a decoder produced. One constructor for each row of spec/opcode_table.json. -/

namespace Sys2Proof

/-- The twelve mnemonics (00_scope.md R3). -/
inductive Mnemonic where
  | load | store | loadImmediate
  | add | sub | mul | shr | shl
  | and | or | xor | not
  deriving DecidableEq, Repr

/-- The second operand of the arithmetic/shift format, `isImm` and `opnd` of 10_state.md R35. -/
inductive Operand where
  /-- `isImm = 1`: the immediate sign-extended to `R` bits. -/
  | imm (value : Nat)
  /-- `isImm = 0`: the whole operand field as a register index, which may name no register
  (30_encoding.md R78). -/
  | reg (index : Nat)
  deriving DecidableEq, Repr

/-- An instruction, with the operands that the latch holds after decoding (10_state.md R35). -/
inductive Instr where
  /-- `load`: `off` is the offset sign-extended to `R` bits. -/
  | load (dst base : Nat) (off : Nat)
  /-- `store`: `addr` is the address register, `off` the offset sign-extended to `R` bits. -/
  | store (addr src : Nat) (off : Nat)
  /-- `load_immediate`: `data` is unsigned, `H` bits. -/
  | loadImmediate (dst : Nat) (isUpper : Bool) (data : Nat)
  | add (ds : Nat) (opnd : Operand)
  | sub (ds : Nat) (opnd : Operand)
  | mul (ds : Nat) (opnd : Operand)
  | shr (ds : Nat) (opnd : Operand)
  | shl (ds : Nat) (opnd : Operand)
  | and (dst src : Nat)
  | or (dst src : Nat)
  | xor (dst src : Nat)
  | not (ds : Nat)
  deriving DecidableEq, Repr

/-- The mnemonic of an instruction. -/
def Instr.mnemonic : Instr → Mnemonic
  | .load _ _ _ => .load
  | .store _ _ _ => .store
  | .loadImmediate _ _ _ => .loadImmediate
  | .add _ _ => .add
  | .sub _ _ => .sub
  | .mul _ _ => .mul
  | .shr _ _ => .shr
  | .shl _ _ => .shl
  | .and _ _ => .and
  | .or _ _ => .or
  | .xor _ _ => .xor
  | .not _ => .not

end Sys2Proof
end

