-- ==== Sys2Proof/WellFormed.lean ====
section
/-! DEFINITION. Which instructions the latch of a configuration can hold: every register index in
range, every operand a value its field can give (10_state.md R35, 30_encoding.md R77). -/

namespace Sys2Proof

/-- `i` names a register (10_state.md R24). -/
def registerInRange (c : Config) (i : Nat) : Bool := decide (i < c.registerCount)

/-- `v` is an `R`-bit word that a signed field of `width` bits gives: the low half of the range, or
the two's-complement negatives (30_encoding.md R76, R85). -/
def signedFieldValue (c : Config) (width : Nat) (v : Nat) : Bool :=
  decide (v < 2 ^ (width - 1)) ||
    (decide (2 ^ c.registerBits - 2 ^ (width - 1) ≤ v) && decide (v < 2 ^ c.registerBits))

/-- A second operand that the arithmetic/shift decoder can give: a register-form field may exceed
the register count (30_encoding.md R77, R78). -/
def Operand.wellFormed (c : Config) : Operand → Bool
  | .imm v => signedFieldValue c c.operandBits v
  | .reg i => decide (i < 2 ^ c.operandBits)

/-- The operands of `i` are ones that decoding gives in configuration `c` (10_state.md R35). -/
def Instr.wellFormed (c : Config) : Instr → Bool
  | .load dst base off =>
    registerInRange c dst && registerInRange c base && signedFieldValue c c.offsetBits off
  | .store addr src off =>
    registerInRange c addr && registerInRange c src && signedFieldValue c c.offsetBits off
  | .loadImmediate dst _ data => registerInRange c dst && decide (data < 2 ^ c.halfBits)
  | .add ds o => registerInRange c ds && o.wellFormed c
  | .sub ds o => registerInRange c ds && o.wellFormed c
  | .mul ds o => registerInRange c ds && o.wellFormed c
  | .shr ds o => registerInRange c ds && o.wellFormed c
  | .shl ds o => registerInRange c ds && o.wellFormed c
  | .and dst src => registerInRange c dst && registerInRange c src
  | .or dst src => registerInRange c dst && registerInRange c src
  | .xor dst src => registerInRange c dst && registerInRange c src
  | .not ds => registerInRange c ds

end Sys2Proof
end

