-- ==== Sys2Proof/Decode.lean ====
section
/-! DEFINITION. Field extraction, sign extension, the opcode map, the decoders and the encoder
(30_encoding.md R63 to R84). -/

namespace Sys2Proof

/-- The value of the `width` bits of `w` whose lowest is bit `lo`, `w[lo+width-1:lo]`; 0 when
`width` is 0 (00_scope.md R15, 30_encoding.md R73). -/
def field (w : Nat) (lo width : Nat) : Nat := w / 2 ^ lo % 2 ^ width

/-- Sign extension of a `width`-bit field value to an `r`-bit word (30_encoding.md R76). -/
def signExtend (r width f : Nat) : Nat :=
  if f.testBit (width - 1) then f ||| Word.trunc r (Word.allOnes r <<< width) else f

/-- The order in which the instructions are registered, which is the parameter `OPCODE_OF`: the
opcode index of an instruction is its place here (30_encoding.md R65; log 11). -/
def registrationOrder : List Mnemonic :=
  [.load, .store, .loadImmediate, .add, .sub, .mul, .shr, .shl, .and, .or, .xor, .not]

/-- The opcode index of an instruction (30_encoding.md R65). -/
def opcodeOf (m : Mnemonic) : Nat := registrationOrder.idxOf m

/-- The opcode value: the index shifted into the top field (30_encoding.md R65). -/
def opcodeValue (c : Config) (m : Mnemonic) : Nat := opcodeOf m <<< c.bitsBelowOpcode

/-- `op(w)`, the opcode index of a word (30_encoding.md R64). -/
def opcodeIndex (c : Config) (w : Nat) : Nat := field w c.bitsBelowOpcode c.bitsForOpcode

/-- The reason a word has no instruction. -/
inductive DecodeError where
  /-- The opcode index is not registered (30_encoding.md R80, R82). -/
  | unknownInstruction (index : Nat)
  deriving DecidableEq, Repr

/-- The `B` bits at the top of the part below the opcode (30_encoding.md R66). -/
def firstRegister (c : Config) (w : Nat) : Nat :=
  field w (c.bitsBelowOpcode - c.bitsForRegister) c.bitsForRegister

/-- The `B` bits below those (30_encoding.md R66). -/
def secondRegister (c : Config) (w : Nat) : Nat :=
  field w (c.bitsBelowOpcode - 2 * c.bitsForRegister) c.bitsForRegister

/-- The offset field sign-extended to `R` bits (30_encoding.md R66, R67). -/
def offsetOperand (c : Config) (w : Nat) : Nat :=
  signExtend c.registerBits c.offsetBits (field w 0 c.offsetBits)

/-- The destination of the arithmetic/shift format, below the `isImmediate` bit
(30_encoding.md R69). -/
def arithDestination (c : Config) (w : Nat) : Nat :=
  field w (c.bitsBelowOpcode - 1 - c.bitsForRegister) c.bitsForRegister

/-- The second operand of the arithmetic/shift format (30_encoding.md R69, R77, R78). -/
def arithOperand (c : Config) (w : Nat) : Operand :=
  if field w (c.bitsBelowOpcode - 1) 1 = 1 then
    .imm (signExtend c.registerBits c.operandBits (field w 0 c.operandBits))
  else
    .reg (field w 0 c.operandBits)

/-- The decoder of format `load` (30_encoding.md R66). -/
def decodeLoad (c : Config) (w : Nat) : Instr :=
  .load (firstRegister c w) (secondRegister c w) (offsetOperand c w)

/-- The decoder of format `store` (30_encoding.md R67). -/
def decodeStore (c : Config) (w : Nat) : Instr :=
  .store (firstRegister c w) (secondRegister c w) (offsetOperand c w)

/-- The decoder of format `load_immediate` (30_encoding.md R68). -/
def decodeLoadImmediate (c : Config) (w : Nat) : Instr :=
  .loadImmediate (firstRegister c w)
    (field w (c.bitsBelowOpcode - c.bitsForRegister - 1) 1 == 1)
    (field w c.loadImmUnusedBits c.halfBits)

/-- The decoder of the arithmetic/shift format (30_encoding.md R69). -/
def decodeArith (ctor : Nat → Operand → Instr) (c : Config) (w : Nat) : Instr :=
  ctor (arithDestination c w) (arithOperand c w)

/-- The decoder of the bitwise two-register format (30_encoding.md R70). -/
def decodeBitwise (ctor : Nat → Nat → Instr) (c : Config) (w : Nat) : Instr :=
  ctor (firstRegister c w) (secondRegister c w)

/-- The decoder of format bitwise not (30_encoding.md R71). -/
def decodeNot (c : Config) (w : Nat) : Instr := .not (firstRegister c w)

/-- The decoder that the dispatch table holds for each instruction (45_dispatcher.md R105). -/
def decoderOf (m : Mnemonic) (c : Config) (w : Nat) : Instr :=
  match m with
  | .load => decodeLoad c w
  | .store => decodeStore c w
  | .loadImmediate => decodeLoadImmediate c w
  | .add => decodeArith .add c w
  | .sub => decodeArith .sub c w
  | .mul => decodeArith .mul c w
  | .shr => decodeArith .shr c w
  | .shl => decodeArith .shl c w
  | .and => decodeBitwise .and c w
  | .or => decodeBitwise .or c w
  | .xor => decodeBitwise .xor c w
  | .not => decodeNot c w

/-- Decoding a word: the registered decoder of its opcode index, or "unknown instruction"
(30_encoding.md R79 to R82). Bits of `w` at and above `R` are not read. -/
def decode (c : Config) (w : Nat) : Except DecodeError Instr :=
  match registrationOrder[opcodeIndex c w]? with
  | some m => .ok (decoderOf m c w)
  | none => .error (.unknownInstruction (opcodeIndex c w))

/-- The number of low bits that the decoder of an instruction does not read (30_encoding.md R75). -/
def unusedBits (c : Config) : Mnemonic → Nat
  | .load | .store | .add | .sub | .mul | .shr | .shl => 0
  | .loadImmediate => c.loadImmUnusedBits
  | .and | .or | .xor => c.offsetBits
  | .not => c.bitsBelowOpcode - c.bitsForRegister

/-- Concatenation of fields, given as (width, value) with the most significant first
(00_scope.md R16). -/
def concatFields : List (Nat × Nat) → Nat
  | [] => 0
  | (_, v) :: rest => v * 2 ^ (rest.map Prod.fst).sum + concatFields rest

/-- The fields of the arithmetic/shift format below the opcode (30_encoding.md R69). -/
def arithFields (c : Config) (ds : Nat) : Operand → List (Nat × Nat)
  | .imm v => [(1, 1), (c.bitsForRegister, ds), (c.operandBits, v % 2 ^ c.operandBits)]
  | .reg i => [(1, 0), (c.bitsForRegister, ds), (c.operandBits, i)]

/-- The fields below the opcode, in the order of 30_encoding.md R66 to R71; unused bits are 0
(30_encoding.md R74, R85). -/
def operandFields (c : Config) : Instr → List (Nat × Nat)
  | .load dst base off | .store dst base off =>
    [(c.bitsForRegister, dst), (c.bitsForRegister, base), (c.offsetBits, off % 2 ^ c.offsetBits)]
  | .loadImmediate dst isUpper data =>
    [(c.bitsForRegister, dst), (1, isUpper.toNat), (c.halfBits, data), (c.loadImmUnusedBits, 0)]
  | .add ds o | .sub ds o | .mul ds o | .shr ds o | .shl ds o => arithFields c ds o
  | .and dst src | .or dst src | .xor dst src =>
    [(c.bitsForRegister, dst), (c.bitsForRegister, src), (c.offsetBits, 0)]
  | .not ds => [(c.bitsForRegister, ds), (c.bitsBelowOpcode - c.bitsForRegister, 0)]

/-- The word of an instruction: its opcode in the top field, then its operand fields
(30_encoding.md R64 to R71, R74). -/
def encode (c : Config) (i : Instr) : Nat :=
  concatFields ((c.bitsForOpcode, opcodeOf i.mnemonic) :: operandFields c i)

/-- The instruction that the default configuration decodes from a table word of `nbits` bits; the
word has no byte order inside the block (20_memory.md R44). -/
def decodeTableWord (nbits w : Nat) : Option Instr :=
  match decode defaultConfig (w % 2 ^ nbits) with
  | .ok i => some i
  | .error _ => none

end Sys2Proof
end

