-- ==== Sys2Proof/Machine/State.lean ====
section
/-! DEFINITION. The state of the block (10_state.md), the caller's calls that it has not yet
performed, the ways a step can stop, and the state after reset. Plain data throughout. -/

namespace Sys2Proof.Machine

/-- Memory: the bytes that differ from `Config.fillByte`, by strictly rising address
(10_state.md R28; log 2). -/
abbrev Memory := List Host.Cell

/-- The canonical form: addresses strictly rising, and no entry equal to what an unlisted address
reads as. -/
abbrev Memory.wf (m : Memory) : Prop :=
  m.Pairwise (fun x y => x.1 < y.1) ∧ ∀ x ∈ m, x.2 ≠ Config.fillByte

/-- Every listed address lies below `size` (20_memory.md R41). -/
abbrev Memory.inBounds (size : Nat) (m : Memory) : Prop := ∀ x ∈ m, x.1 < size

/-- The Dispatcher's phase (10_state.md R34). -/
inductive Phase where
  | idle
  | decoded
  | executed
  deriving DecidableEq, Repr

/-- A call of the caller: one of the two transactions of 45_dispatcher.md R104, or the two of one
cycle (log 5). -/
inductive Call where
  /-- `decode(w)`. -/
  | decode (w : Nat)
  /-- `execute()`. -/
  | execute
  /-- One cycle: `decode(w)`, then `execute()` unless the decode returned a hard error
  (45_dispatcher.md R114). -/
  | cycle (w : Nat)
  deriving DecidableEq, Repr

/-- The state of the block between transactions (10_state.md R19 to R40), with the calls that the
caller has issued and the status it was last handed, which are the model's own (logs 4 and 6). -/
structure State where
  /-- The configuration, fixed at construction (10_state.md R19). -/
  cfg : Config
  /-- The register file: register `i` is entry `i` (10_state.md R24). -/
  regs : List Nat
  /-- The memory (10_state.md R28). -/
  mem : Memory
  /-- The Dispatcher's phase (10_state.md R34). -/
  phase : Phase
  /-- The decoded latch, or empty (10_state.md R35). -/
  latch : Option Instr
  /-- The model's own: the calls issued and not yet performed, the oldest first (log 4). -/
  calls : List Call
  /-- The model's own: the status the last transaction returned; nothing reads it (log 6). -/
  returned : Option Status
  deriving DecidableEq, Repr

/-- The ways the machine stops. -/
inductive Fault where
  /-- Raised by the execute of an arithmetic/shift instruction in register form whose operand names
  no register; the spec's own model fault (60_exceptions.md R125). Safe: no claim about such a run
  can be proved. -/
  | badRegisterIndex
  deriving DecidableEq, Repr

/-- The ways the model declines an instruction. -/
inductive Refusal where
  /-- An arm of `exec` without a meaning. Raised by none: every row of the table has its meaning.
  Safe. -/
  | notModelled (mnemonic : String)
  deriving DecidableEq, Repr

/-- The machine right after reset: the construction of the default configuration (10_state.md R38).
The phase and the latch are the spec's; the registers and the fill of memory, which the spec leaves
open, are logs 1 and 2; no call is pending (log 5). -/
def State.reset : State :=
  { cfg := defaultConfig
    regs := List.replicate defaultConfig.registerCount Config.resetRegister
    mem := []
    phase := .idle
    latch := none
    calls := []
    returned := none }

end Sys2Proof.Machine
end

