-- ==== Sys2Proof/Machine/Flags.lean ====
section
/-! DEFINITION. The block has no flags and no condition codes (10_state.md R31): what an operation
reports is its status. This file gives a status its class and its number (10_state.md R33,
60_exceptions.md R117, R118). -/

namespace Sys2Proof

/-- The classes of 10_state.md R33. -/
inductive StatusClass where
  | success
  | warning
  | hardError
  deriving DecidableEq, Repr

/-- The class of each status (60_exceptions.md R117). -/
def Status.classOf : Status → StatusClass
  | .ok => .success
  | .lastMemoryByte => .warning
  | .decodeUnknown => .hardError
  | .execUnknown => .hardError
  | .outOfMemory => .hardError
  | .shiftRange => .hardError

/-- The status is a hard error. -/
def Status.isHardError (st : Status) : Bool := st.classOf == .hardError

/-- A status number of class `k`, the free part placed in the range of the class: 0, `[-500, 0)`,
or below -500 (60_exceptions.md R118). Every number of the range is the value for some `free`. -/
def StatusClass.number (k : StatusClass) (free : Nat) : Int :=
  match k with
  | .success => 0
  | .warning => -1 - (free % 500 : Nat)
  | .hardError => -501 - (free : Int)

/-- `STATUS_VALUES`: the signed integer of a status, open but for its class (60_exceptions.md R118;
log 12). -/
def Status.value (st : Status) : Int := st.classOf.number (Config.statusFree st)

end Sys2Proof
end

