-- ==== Sys2Proof/Machine/Ops.lean ====
section
/-! DEFINITION. The named operations over registers and memory, and the one operation that ends an
execute transaction. -/

namespace Sys2Proof.Machine

/-- `x[i]` (00_scope.md R15). Every index below the register count has a word; no instruction that
decoding gives reads another (log 9). -/
def readReg (s : State) (i : Nat) : Nat := s.regs.getD i 0

/-- `x[i] <- v`, reduced mod `2^R` (00_scope.md R15). -/
def writeReg (i : Nat) (v : Nat) (s : State) : State :=
  { s with regs := s.regs.set i (Word.trunc s.cfg.registerBits v) }

/-- `mem[a]`: the listed byte, or the fill byte (00_scope.md R15; log 2). -/
def readByte : Memory → Nat → Byte
  | [], _ => Config.fillByte
  | (k, v) :: rest, a => if k = a then v else readByte rest a

/-- `mem[a] <- b`, keeping the canonical form (00_scope.md R15). -/
def writeByte : Memory → Nat → Byte → Memory
  | [], a, b => if b = Config.fillByte then [] else [(a, b)]
  | (k, v) :: rest, a, b =>
    if k < a then (k, v) :: writeByte rest a b
    else
      let tail := if k = a then rest else (k, v) :: rest
      if b = Config.fillByte then tail else (a, b) :: tail

/-- `MemRead(a, n)`: the little-endian value of `n` bytes (00_scope.md R15, 20_memory.md R43). -/
def memRead (m : Memory) (a : Nat) : Nat → Nat
  | 0 => 0
  | n + 1 => (readByte m a).toNat + 256 * memRead m (a + 1) n

/-- `MemWrite(a, n, v)`: the low `n` bytes of `v`, little-endian (00_scope.md R15,
20_memory.md R43). -/
def memWrite (m : Memory) (a : Nat) : Nat → Nat → Memory
  | 0, _ => m
  | n + 1, v => memWrite (writeByte m a (BitVec.ofNat 8 v)) (a + 1) n (v / 256)

/-- The state with `n` bytes of `v` stored from address `a` on (20_memory.md R43). -/
def storeBytes (a n : Nat) (v : Nat) (s : State) : State :=
  { s with mem := memWrite s.mem a n v }

/-- The memory with the given contents below `size` (10_state.md R38, INIT_MEM). -/
def memoryOf (size : Nat) (contents : Nat → Byte) : Memory :=
  (List.range size).filterMap fun a =>
    if contents a = Config.fillByte then none else some (a, contents a)

/-- The end of an execute transaction: the status goes to the caller, the latch is consumed, and the
phase is `Idle` after a hard error and `Executed` otherwise (45_dispatcher.md R110, R113; log 15). -/
def endExecute (st : Status) (s : State) : State :=
  { s with
    phase := if st.isHardError then .idle else .executed
    latch := none
    returned := some st }

/-- `return S`: the execute ends with the writes made in `s` committed (00_scope.md R15). -/
def returnStatus (st : Status) (s : State) : Host.Outcome State Fault Refusal :=
  .next (endExecute st s)

/-- `raise S`, which stands where other machines take an exception: a hard error ends the execute in
the state it began in, saves nothing and transfers control nowhere (00_scope.md R15,
60_exceptions.md R115, R122). There is no return from it (60_exceptions.md R123): the caller goes on
with its next call. -/
def raiseStatus (st : Status) (s : State) : Host.Outcome State Fault Refusal :=
  .next (endExecute st s)

end Sys2Proof.Machine
end

