-- ==== Sys2Proof/Machine/Operands.lean ====
section
/-! DEFINITION. Operand forms: the second operand of the arithmetic/shift format, the effective
address, and the size of a memory access (43_arith_shift.md R93, 20_memory.md R46 to R50). -/

namespace Sys2Proof.Machine

/-- `Operand()`: the immediate, or the register's value; none when the index names no register
(43_arith_shift.md R93). -/
def operandValue (s : State) : Operand → Option Nat
  | .imm v => some v
  | .reg i => if s.cfg.registerCount ≤ i then none else some (readReg s i)

/-- The operand fetch that the five arithmetic/shift instructions begin with: the meaning goes on with
the value, or the model faults before any state is read or written (43_arith_shift.md R93). -/
def withOperand (o : Operand) (s : State) (go : Nat → Host.Outcome State Fault Refusal) :
    Host.Outcome State Fault Refusal :=
  match operandValue s o with
  | none => .fault .badRegisterIndex
  | some v => go v

/-- `EA = (x[base] + off) mod 2^R` (20_memory.md R46). -/
def effectiveAddress (s : State) (base : Nat) (off : Nat) : Nat :=
  Word.trunc s.cfg.registerBits (readReg s base + off)

/-- `AccessSize(EA)`: how many bytes the access moves and the status it returns, or the error it
raises (20_memory.md R47 to R50). The error cannot occur when `MEM = 2^R` and is kept as the spec
keeps it (20_memory.md R47; log 16). -/
def accessSize (c : Config) (ea : Nat) : Except Status (Nat × Status) :=
  if c.memorySize ≤ ea then .error .outOfMemory
  else if c.memorySize - c.registerBytes < ea then .ok (c.memorySize - ea, .lastMemoryByte)
  else .ok (c.registerBytes, .ok)

end Sys2Proof.Machine
end

