-- ==== Sys2Proof/Machine/ArithShift.lean ====
section
/-! DEFINITION. `add`, `sub`, `mul`, `shr`, `shl` (43_arith_shift.md). -/

namespace Sys2Proof.Machine

/-- `add` (43_arith_shift.md R94). -/
def execAdd (ds : Nat) (opnd : Operand) (s : State) : Host.Outcome State Fault Refusal :=
  withOperand opnd s fun v => returnStatus .ok (writeReg ds (readReg s ds + v) s)

/-- `sub`: the mathematical difference mod `2^R`, never negative (43_arith_shift.md R95). -/
def execSub (ds : Nat) (opnd : Operand) (s : State) : Host.Outcome State Fault Refusal :=
  withOperand opnd s fun v =>
    returnStatus .ok
      (writeReg ds (((readReg s ds : Int) - (v : Int)) % 2 ^ s.cfg.registerBits).toNat s)

/-- `mul`: the low `R` bits of the product (43_arith_shift.md R96). -/
def execMul (ds : Nat) (opnd : Operand) (s : State) : Host.Outcome State Fault Refusal :=
  withOperand opnd s fun v => returnStatus .ok (writeReg ds (readReg s ds * v) s)

/-- `shr`: logical, by an unsigned amount of at most `R` (43_arith_shift.md R97). -/
def execShr (ds : Nat) (opnd : Operand) (s : State) : Host.Outcome State Fault Refusal :=
  withOperand opnd s fun v =>
    if s.cfg.registerBits < v then raiseStatus .shiftRange s
    else returnStatus .ok (writeReg ds (readReg s ds / 2 ^ v) s)

/-- `shl`: truncated, by an unsigned amount of at most `R` (43_arith_shift.md R98). -/
def execShl (ds : Nat) (opnd : Operand) (s : State) : Host.Outcome State Fault Refusal :=
  withOperand opnd s fun v =>
    if s.cfg.registerBits < v then raiseStatus .shiftRange s
    else returnStatus .ok (writeReg ds (readReg s ds * 2 ^ v) s)

end Sys2Proof.Machine
end

