-- ==== Sys2Proof/Machine/Bitwise.lean ====
section
/-! DEFINITION. `and`, `or`, `xor`, `not` (44_bitwise.md). -/

namespace Sys2Proof.Machine

/-- `and` (44_bitwise.md R100). -/
def execAnd (dst src : Nat) (s : State) : Host.Outcome State Fault Refusal :=
  returnStatus .ok (writeReg dst (readReg s dst &&& readReg s src) s)

/-- `or` (44_bitwise.md R101). -/
def execOr (dst src : Nat) (s : State) : Host.Outcome State Fault Refusal :=
  returnStatus .ok (writeReg dst (readReg s dst ||| readReg s src) s)

/-- `xor` (44_bitwise.md R102). -/
def execXor (dst src : Nat) (s : State) : Host.Outcome State Fault Refusal :=
  returnStatus .ok (writeReg dst (readReg s dst ^^^ readReg s src) s)

/-- `not` (44_bitwise.md R103). -/
def execNot (ds : Nat) (s : State) : Host.Outcome State Fault Refusal :=
  returnStatus .ok (writeReg ds (Word.allOnes s.cfg.registerBits ^^^ readReg s ds) s)

end Sys2Proof.Machine
end

