-- ==== Sys2Proof/Machine/LoadImmediate.lean ====
section
/-! DEFINITION. `load_immediate` (42_load_immediate.md). -/

namespace Sys2Proof.Machine

/-- `load_immediate`: one half of the destination becomes `data`, the other half stays
(42_load_immediate.md R91). -/
def execLoadImmediate (dst : Nat) (isUpper : Bool) (data : Nat) (s : State) :
    Host.Outcome State Fault Refusal :=
  let low := Word.allOnes s.cfg.halfBits
  let high := Word.allOnes s.cfg.registerBits ^^^ low
  if isUpper then
    returnStatus .ok (writeReg dst ((readReg s dst &&& low) ||| (data <<< s.cfg.halfBits)) s)
  else
    returnStatus .ok (writeReg dst ((readReg s dst &&& high) ||| data) s)

end Sys2Proof.Machine
end

