-- ==== Sys2Proof/Machine/LoadStore.lean ====
section
/-! DEFINITION. `load` and `store` (41_load_store.md). -/

namespace Sys2Proof.Machine

/-- `load`: the bytes at the effective address, little-endian; a partial access zero-fills the high
bytes (41_load_store.md R88). -/
def execLoad (dst base : Nat) (off : Nat) (s : State) : Host.Outcome State Fault Refusal :=
  let ea := effectiveAddress s base off
  match accessSize s.cfg ea with
  | .error st => raiseStatus st s
  | .ok (n, st) => returnStatus st (writeReg dst (memRead s.mem ea n) s)

/-- `store`: the low bytes of the source register, little-endian; a partial access writes only the
bytes that fit (41_load_store.md R89). -/
def execStore (addr src : Nat) (off : Nat) (s : State) : Host.Outcome State Fault Refusal :=
  let ea := effectiveAddress s addr off
  match accessSize s.cfg ea with
  | .error st => raiseStatus st s
  | .ok (n, st) => returnStatus st (storeBytes ea n (readReg s src) s)

end Sys2Proof.Machine
end

