-- ==== Sys2Proof/Machine/Dispatch.lean ====
section
/-! DEFINITION. The executor of each instruction, chosen by the latch's variant (45_dispatcher.md R105,
R109). -/

namespace Sys2Proof.Machine

-- One arm per constructor; each is the execute of that instruction in phase Decoded.
def exec (i : Instr) (s : State) : Host.Outcome State Fault Refusal :=
  match i with
  | .load dst base off => Sys2Proof.Machine.execLoad dst base off s
  | .store addr src off => Sys2Proof.Machine.execStore addr src off s
  | .loadImmediate dst isUpper data => Sys2Proof.Machine.execLoadImmediate dst isUpper data s
  | .add ds opnd => Sys2Proof.Machine.execAdd ds opnd s
  | .sub ds opnd => Sys2Proof.Machine.execSub ds opnd s
  | .mul ds opnd => Sys2Proof.Machine.execMul ds opnd s
  | .shr ds opnd => Sys2Proof.Machine.execShr ds opnd s
  | .shl ds opnd => Sys2Proof.Machine.execShl ds opnd s
  | .and dst src => Sys2Proof.Machine.execAnd dst src s
  | .or dst src => Sys2Proof.Machine.execOr dst src s
  | .xor dst src => Sys2Proof.Machine.execXor dst src s
  | .not ds => Sys2Proof.Machine.execNot ds s

end Sys2Proof.Machine
end

