-- ==== Sys2Proof/Machine/Transactions.lean ====
section
/-! DEFINITION. The decode and execute transactions of the Dispatcher, a whole cycle, and where the
next instruction word comes from (45_dispatcher.md R104 to R113). -/

namespace Sys2Proof.Machine

/-- `decode(w)`, accepted in every phase. A registered opcode overwrites the latch; an unregistered
one empties it and leaves the block in `Idle` (45_dispatcher.md R106 to R108, R113). Registers and
memory are not touched. -/
def decodeTransaction (w : Nat) (s : State) : State :=
  match decode s.cfg w with
  | .ok i => { s with phase := .decoded, latch := some i, returned := some .ok }
  | .error _ => { s with phase := .idle, latch := none, returned := some .decodeUnknown }

/-- `execute()` where there is no valid decoded instruction: the status is returned and nothing else
changes (45_dispatcher.md R111). -/
def executeUnknown (s : State) : State := { s with returned := some .execUnknown }

/-- `execute()`: in phase `Decoded` the executor of the latch runs, otherwise there is no valid
decoded instruction (45_dispatcher.md R109, R111). The phase is `Decoded` only with a full latch
(log 10). -/
def executeTransaction (s : State) : Host.Outcome State Fault Refusal :=
  match s.phase, s.latch with
  | .decoded, some i => exec i s
  | .decoded, none => .next (executeUnknown s)
  | .idle, _ => .next (executeUnknown s)
  | .executed, _ => .next (executeUnknown s)

/-- The last transaction returned a hard error. -/
def returnedHardError (s : State) : Bool :=
  match s.returned with
  | some st => st.isHardError
  | none => false

/-- One cycle: a decode, then an execute unless the decode returned a hard error (45_dispatcher.md
R107, R114). -/
def cycleTransaction (w : Nat) (s : State) : Host.Outcome State Fault Refusal :=
  let t := decodeTransaction w s
  if returnedHardError t then .next t else executeTransaction t

/-- One call of the caller. -/
def performCall (c : Call) (s : State) : Host.Outcome State Fault Refusal :=
  match c with
  | .decode w => .next (decodeTransaction w s)
  | .execute => executeTransaction s
  | .cycle w => cycleTransaction w s

/-- The caller issues the cycle of a word before the calls already pending. The word's first `R` bits
are the instruction word; it has no byte order (20_memory.md R44). -/
def issueCycle (w : Nat) (s : State) : State :=
  { s with calls := .cycle (Word.trunc s.cfg.registerBits w) :: s.calls }

end Sys2Proof.Machine
end

