-- ==== Sys2Proof/Machine/Step.lean ====
section
/-! DEFINITION. One step: the oldest pending call of the caller. -/

namespace Sys2Proof.Machine

/-- The oldest pending call is taken and performed to its end (45_dispatcher.md R104, 20_memory.md R53).
With none pending the block holds its state (60_exceptions.md R131; log 4). -/
def step (s : State) : Host.Outcome State Fault Refusal :=
  match s.calls with
  | [] => .next s
  | c :: rest => Sys2Proof.Machine.performCall c { s with calls := rest }

/-- `s` with the table word as the next instruction word the caller supplies (log 5). -/
def State.withFetchWord (s : State) (nbits w : Nat) : State :=
  Sys2Proof.Machine.issueCycle (w % 2 ^ nbits) s

end Sys2Proof.Machine
end

