-- ==== Sys2Proof/Machine/Construct.lean ====
section
/-! DEFINITION. The construction transaction, the block's only reset (45_dispatcher.md R104,
70_reset_and_hazards.md R132). -/

namespace Sys2Proof.Machine

/-- The state after construction with configuration `c` and the launch inputs `INIT_REGS` and
`INIT_MEM` (10_state.md R38). -/
def launchState (c : Config) (initRegs : Nat → Nat) (initMem : Nat → Byte) : State :=
  { cfg := c
    regs := (List.range c.registerCount).map fun i => Word.trunc c.registerBits (initRegs i)
    mem := memoryOf c.memorySize initMem
    phase := .idle
    latch := none
    calls := []
    returned := none }

/-- Construction: the validity check, then the processor in its reset state, or a configuration error
and no processor (10_state.md R22, R23, 60_exceptions.md R121). -/
def construct (p : Params) (initRegs : Nat → Nat) (initMem : Nat → Byte) :
    Except ConfigError State :=
  if h : p.Valid then .ok (launchState { toParams := p, valid := h } initRegs initMem)
  else .error .invalidConfiguration

end Sys2Proof.Machine
end

