-- ==== Sys2Proof/Machine/Driver.lean ====
section
/-! DEFINITION. The reference driver of 45_dispatcher.md R114: outside the block, a function over the
block's transactions. -/

namespace Sys2Proof.Machine

/-- How a run of the driver ends. -/
inductive DriverResult where
  /-- `Done(n, warnings)`, with the state of the block. -/
  | done (n : Nat) (warnings : List (Nat × Status)) (s : State)
  /-- `Stop(k, st, warnings)`, with the state of the block. -/
  | stop (k : Nat) (st : Status) (warnings : List (Nat × Status)) (s : State)
  /-- The run entered the model fault at word `k` and has no final state. -/
  | faulted (k : Nat) (f : Fault)
  /-- The model declined word `k`; no word of this machine does. -/
  | declined (k : Nat) (r : Refusal)
  deriving DecidableEq, Repr

/-- The warnings after cycle `k` returned `st`: one is added unless the status is `OK`
(45_dispatcher.md R114). -/
def addWarning (k : Nat) (st : Status) (warnings : List (Nat × Status)) : List (Nat × Status) :=
  if st = .ok then warnings else warnings ++ [(k, st)]

/-- The driver's loop from index `k`, one cycle for each word, stopping at the first hard error
(45_dispatcher.md R114). -/
def driverLoop : List Nat → Nat → List (Nat × Status) → State → DriverResult
  | [], k, warnings, s => .done k warnings s
  | w :: rest, k, warnings, s =>
    match cycleTransaction w s with
    | .fault f => .faulted k f
    | .refused r => .declined k r
    | .next t =>
      let st := t.returned.getD .ok
      if st.isHardError then .stop k st warnings t
      else driverLoop rest (k + 1) (addWarning k st warnings) t

/-- `Run(prog)` (45_dispatcher.md R114). -/
def runProgram (prog : List Nat) (s : State) : DriverResult := driverLoop prog 0 [] s

end Sys2Proof.Machine
end

