-- ==== Sys2Proof/Safety.lean ====
section
/-! DEFINITION. The terms that claims use: the invariant of the state, what an instruction leaves
unchanged, what an operand denotes, and which call executes which instruction. -/

namespace Sys2Proof

/-- `w[hi:lo]`, as 00_scope.md R15 writes it: 0 when `hi < lo`. -/
def slice (w : Nat) (hi lo : Nat) : Nat :=
  if hi < lo then 0 else w / 2 ^ lo % 2 ^ (hi - lo + 1)

/-- Byte `k` of a word, bits `8k+7` to `8k` (20_memory.md R43). -/
def byteOf (v : Nat) (k : Nat) : Byte := BitVec.ofNat 8 (v / 2 ^ (8 * k))

end Sys2Proof

namespace Sys2Proof.Machine

/-- The invariant of the state: the register file has its size and every register is an `R`-bit word
(10_state.md R24); memory is canonical and lies in its address space (R28); the phase is `Decoded`
exactly when the latch is full, and then with an instruction that decoding gives (R35, R36). -/
abbrev State.Wf (s : State) : Prop :=
  (s.regs.length = s.cfg.registerCount ∧ ∀ v ∈ s.regs, v < 2 ^ s.cfg.registerBits) ∧
  (s.mem.wf ∧ s.mem.inBounds s.cfg.memorySize) ∧
  (s.phase = .decoded ↔ s.latch.isSome = true) ∧
  s.latch.all (fun i => i.wellFormed s.cfg) = true

/-- `v` is the second operand that `o` stands for: the immediate, or the value of a register that
exists (43_arith_shift.md R93). -/
def OperandDenotes (s : State) (o : Operand) (v : Nat) : Prop :=
  match o with
  | .imm w => v = w
  | .reg i => i < s.cfg.registerCount ∧ v = readReg s i

/-- Every register but `d` and every byte of memory read in `t` as in `s`, and the configuration and
the pending calls are the same. -/
def ChangesOnlyRegister (d : Nat) (s t : State) : Prop :=
  (∀ i, i ≠ d → readReg t i = readReg s i) ∧
  (∀ a, readByte t.mem a = readByte s.mem a) ∧
  t.cfg = s.cfg ∧ t.calls = s.calls

/-- Every register and every byte outside the `n` bytes from address `a` on read in `t` as in `s`, and
the configuration and the pending calls are the same. -/
def ChangesOnlyBytes (a n : Nat) (s t : State) : Prop :=
  (∀ i, readReg t i = readReg s i) ∧
  (∀ x, x < a ∨ a + n ≤ x → readByte t.mem x = readByte s.mem x) ∧
  t.cfg = s.cfg ∧ t.calls = s.calls

/-- Registers, memory, configuration and pending calls are the same in `t` as in `s`. -/
def ChangesNothing (s t : State) : Prop :=
  t.regs = s.regs ∧ t.mem = s.mem ∧ t.cfg = s.cfg ∧ t.calls = s.calls

/-- The register an instruction writes, if it writes one (10_state.md R26). -/
def destination : Instr → Option Nat
  | .load dst _ _ => some dst
  | .store _ _ _ => none
  | .loadImmediate dst _ _ => some dst
  | .add ds _ => some ds
  | .sub ds _ => some ds
  | .mul ds _ => some ds
  | .shr ds _ => some ds
  | .shl ds _ => some ds
  | .and dst _ => some dst
  | .or dst _ => some dst
  | .xor dst _ => some dst
  | .not ds => some ds

/-- The second operand of `i` is a register index that names no register of `c`
(30_encoding.md R78, 60_exceptions.md R125). -/
def namesNoRegister (c : Config) (i : Instr) : Prop :=
  ∃ ds k, c.registerCount ≤ k ∧
    (i = .add ds (.reg k) ∨ i = .sub ds (.reg k) ∨ i = .mul ds (.reg k) ∨
      i = .shr ds (.reg k) ∨ i = .shl ds (.reg k))

/-- The instruction that the next step executes, if it executes one: that of the oldest call's word in
a cycle, or that of the latch (45_dispatcher.md R109, R114). -/
def nextExecuted (s : State) : Option Instr :=
  match s.calls with
  | .cycle w :: _ => (decode s.cfg w).toOption
  | .execute :: _ => if s.phase = .decoded then s.latch else none
  | _ => none

/-- `n` steps, stopping at the first fault or refusal. -/
def runSteps : Nat → State → Host.Outcome State Fault Refusal
  | 0, s => .next s
  | n + 1, s =>
    match step s with
    | .next t => runSteps n t
    | .fault f => .fault f
    | .refused r => .refused r

/-- A run is safe at `s` when its next step gives a state. -/
def StepSafe (s : State) : Prop := ∃ t, step s = .next t

end Sys2Proof.Machine
end

