-- ==== Sys2Proof/Certificates/Slice0/Obligations.lean ====
section
/-! DEFINITION. The statements for the provers. They hold for every valid configuration unless they
name the default one. -/

open Sys2Proof Sys2Proof.Machine

/-! ## Configuration, layout, construction -/

/-- The layout and the derived widths of the default configuration (00_scope.md R11, 10_state.md R20
to R22). -/
def Obligations.DefaultLayoutValues : Prop :=
  computeLayout defaultParams =
      { bitsForOpcode := 4, bitsForRegister := 3, opcodeMask := 0xF000, memorySize := 65536 } ∧
    defaultConfig.bitsBelowOpcode = 12 ∧ defaultConfig.halfBits = 8 ∧
    defaultConfig.registerBytes = 2 ∧ defaultConfig.offsetBits = 6 ∧
    defaultConfig.operandBits = 8 ∧ defaultConfig.loadImmUnusedBits = 0

/-- In every valid configuration the fields of every format fill the word exactly, every register
operand field can name every register, a word is whole bytes and two equal halves, and `R >= 16`
(10_state.md R22, which derives these bounds). -/
def Obligations.ValidConfigurationFitsFormats : Prop :=
  ∀ c : Config,
    16 ≤ c.registerBits ∧ 4 ≤ c.bitsForOpcode ∧
    c.registerBits = 8 * c.registerBytes ∧ c.registerBits = 2 * c.halfBits ∧
    c.registerCount = 2 ^ c.bitsForRegister ∧ c.instructionSlots = 2 ^ c.bitsForOpcode ∧
    c.registerBits = c.bitsForOpcode + c.bitsBelowOpcode ∧
    c.bitsBelowOpcode = 2 * c.bitsForRegister + c.offsetBits ∧ 1 ≤ c.offsetBits ∧
    c.bitsBelowOpcode = 1 + c.bitsForRegister + c.operandBits ∧
    max 1 c.bitsForRegister ≤ c.operandBits ∧
    c.bitsBelowOpcode = c.bitsForRegister + 1 + c.halfBits + c.loadImmUnusedBits ∧
    c.operandBits = c.loadImmUnusedBits + c.halfBits

/-- The opcode index is the top `O` bits of the word, and the opcode value `w & opcodeMask` is that
index shifted into place (30_encoding.md R64). -/
def Obligations.OpcodeMaskSelectsOpcodeField : Prop :=
  (∀ (c : Config) (w : Nat), w < 2 ^ c.registerBits →
    opcodeIndex c w = slice w (c.registerBits - 1) (c.registerBits - c.bitsForOpcode) ∧
    w &&& c.opcodeMask = opcodeIndex c w <<< (c.registerBits - c.bitsForOpcode)) ∧
  (∀ w : Nat, w < 65536 →
    opcodeIndex defaultConfig w = slice w 15 12 ∧ w &&& defaultConfig.opcodeMask = w &&& 0xF000)

/-- Construction gives a processor with the given parameters exactly when the conditions of
10_state.md R22 hold, written here with integer differences as the spec writes them, and otherwise a
configuration error (10_state.md R23, 60_exceptions.md R121). -/
def Obligations.ConstructionSucceedsExactlyWhenValid : Prop :=
  ∀ (p : Params) (initRegs : Nat → Nat) (initMem : Nat → Byte),
    let fits : Prop := ∃ o b : Nat,
      p.instructionSlots = 2 ^ o ∧ p.registerCount = 2 ^ b ∧
      0 < p.registerBits ∧ 8 ∣ p.registerBits ∧ 16 ≤ p.instructionSlots ∧
      (1 : Int) ≤ p.registerBits - o - 2 * b ∧
      max 1 (b : Int) ≤ p.registerBits - o - 1 - b ∧
      (0 : Int) ≤ p.registerBits - o - b - 1 - p.registerBits / 2
    (fits → ∃ s, construct p initRegs initMem = .ok s ∧ s.cfg.toParams = p) ∧
    (¬ fits → construct p initRegs initMem = .error .invalidConfiguration)

/-- The state after construction, for every launch input: the registers hold `INIT_REGS`, memory reads
as `INIT_MEM`, the phase is `Idle`, the latch is empty (10_state.md R38, 70_reset_and_hazards.md R132).
That no call is pending and no status was returned is the model's own (logs 4 and 6). -/
def Obligations.ConstructionLeavesLaunchState : Prop :=
  ∀ (p : Params) (initRegs : Nat → Nat) (initMem : Nat → Byte) (s : State),
    construct p initRegs initMem = .ok s →
    s.cfg.toParams = p ∧ s.Wf ∧
    (∀ i, i < p.registerCount → readReg s i = initRegs i % 2 ^ p.registerBits) ∧
    (∀ a, a < 2 ^ p.registerBits → readByte s.mem a = initMem a) ∧
    s.phase = .idle ∧ s.latch = none ∧ s.calls = [] ∧ s.returned = none

/-- `State.reset` is the construction of the default configuration with one launch input, which is the
model's choice (logs 1, 2 and 3). -/
def Obligations.ResetIsDefaultConstruction : Prop :=
  construct defaultParams (fun _ => Config.resetRegister) (fun _ => Config.fillByte) =
    .ok State.reset

/-- The invariant holds at reset. -/
def Obligations.ResetIsWellFormed : Prop := State.reset.Wf

/-! ## Encoding and decoding -/

/-- Decoding the word of a well-formed instruction gives the instruction back, for every instruction,
every operand its encoding admits, and every valid configuration (30_encoding.md R64 to R71, R74,
R76 to R78; the opcode numbers are the spec's own choice, log 11). -/
def Obligations.DecodeOfEncodeIsIdentity : Prop :=
  ∀ (c : Config) (i : Instr), i.wellFormed c = true → decode c (encode c i) = .ok i

/-- Encoding what a word decodes to gives the word with its unused low bits cleared
(30_encoding.md R74, R75; log 14). -/
def Obligations.EncodeOfDecodeClearsUnusedBits : Prop :=
  ∀ (c : Config) (w : Nat) (i : Instr), w < 2 ^ c.registerBits → decode c w = .ok i →
    encode c i = w - w % 2 ^ unusedBits c i.mnemonic

/-- What decoding gives is well formed, and is the instruction registered at the word's opcode index
(10_state.md R35, 30_encoding.md R77, R81). -/
def Obligations.DecodedInstructionIsWellFormed : Prop :=
  ∀ (c : Config) (w : Nat) (i : Instr), decode c w = .ok i →
    i.wellFormed c = true ∧ registrationOrder[opcodeIndex c w]? = some i.mnemonic

/-- An opcode index of 12 or more is rejected: the decode returns `E_DECODE_UNKNOWN`, the phase is
`Idle` and the latch empty whatever they were, and nothing else changes (30_encoding.md R80, R82,
45_dispatcher.md R106; that a decode is accepted in every phase is the spec's choice D11, log 15). -/
def Obligations.UnregisteredOpcodeIsRejected : Prop :=
  ∀ (s : State) (w : Nat), 12 ≤ opcodeIndex s.cfg w →
    decode s.cfg w = .error (.unknownInstruction (opcodeIndex s.cfg w)) ∧
    (decodeTransaction w s).returned = some .decodeUnknown ∧
    (decodeTransaction w s).phase = .idle ∧ (decodeTransaction w s).latch = none ∧
    ChangesNothing s (decodeTransaction w s)

/-- Two words that differ only in bits unused by their instruction decode alike (30_encoding.md R75,
the spec's choice D7, log 14). -/
def Obligations.UnusedBitsAreIgnored : Prop :=
  ∀ (c : Config) (w w' : Nat) (m : Mnemonic), registrationOrder[opcodeIndex c w]? = some m →
    w / 2 ^ unusedBits c m = w' / 2 ^ unusedBits c m → decode c w' = decode c w

/-- Sign extension of a field: with the sign bit set it is the field OR all ones above it, and reads
as the field minus `2^width`; otherwise it is the field. It is an `R`-bit word, and the fields that
are extended are the load and store offset and the arithmetic/shift immediate (30_encoding.md R76). -/
def Obligations.SignExtensionIsTwosComplement : Prop :=
  (∀ r width f : Nat, 1 ≤ width → width ≤ r → f < 2 ^ width →
    signExtend r width f < 2 ^ r ∧
    (f.testBit (width - 1) = true →
      signExtend r width f = f ||| ((2 ^ r - 1) <<< width) % 2 ^ r ∧
      Word.signed r (signExtend r width f) = (f : Int) - 2 ^ width) ∧
    (f.testBit (width - 1) = false →
      signExtend r width f = f ∧ Word.signed r (signExtend r width f) = f) ∧
    -(2 : Int) ^ (width - 1) ≤ Word.signed r (signExtend r width f) ∧
    Word.signed r (signExtend r width f) < (2 : Int) ^ (width - 1)) ∧
  (∀ (c : Config) (w x y v : Nat),
    (decode c w = .ok (.load x y v) ∨ decode c w = .ok (.store x y v) →
      v = signExtend c.registerBits c.offsetBits (w % 2 ^ c.offsetBits)) ∧
    (decode c w = .ok (.add x (.imm v)) ∨ decode c w = .ok (.sub x (.imm v)) ∨
        decode c w = .ok (.mul x (.imm v)) ∨ decode c w = .ok (.shr x (.imm v)) ∨
        decode c w = .ok (.shl x (.imm v)) →
      v = signExtend c.registerBits c.operandBits (w % 2 ^ c.operandBits))) ∧
  defaultConfig.offsetBits = 6 ∧ defaultConfig.operandBits = 8

/-- A field is read with a mask of its width shifted to its position; it is the slice of the word
there, and a field of width 0 has value 0 (30_encoding.md R73). -/
def Obligations.FieldIsMaskedShift : Prop :=
  ∀ w lo width : Nat,
    field w lo width = (w >>> lo) &&& ((1 <<< width) - 1) ∧
    (0 < width → field w lo width = slice w (lo + width - 1) lo) ∧ field w lo 0 = 0

/-- The six decoders read the bit ranges that the six formats give, in every valid configuration
(30_encoding.md R66 to R71; that spare bits are the lowest and `data` stands above them when `Ul > 0`
is the spec's own choice D6, log 14). -/
def Obligations.DecodersReadTheirFields : Prop :=
  ∀ (c : Config) (w : Nat),
    let r := c.registerBits
    let p := c.bitsBelowOpcode
    let b := c.bitsForRegister
    let wm := c.offsetBits
    let wa := c.operandBits
    let first := slice w (p - 1) (p - b)
    let second := slice w (p - b - 1) (p - 2 * b)
    let off := signExtend r wm (slice w (wm - 1) 0)
    let ds := slice w (p - 2) (p - 1 - b)
    let opnd := if slice w (p - 1) (p - 1) = 1 then
      Operand.imm (signExtend r wa (slice w (wa - 1) 0)) else Operand.reg (slice w (wa - 1) 0)
    decoderOf .load c w = .load first second off ∧
    decoderOf .store c w = .store first second off ∧
    decoderOf .loadImmediate c w = .loadImmediate first
      (slice w (p - b - 1) (p - b - 1) == 1) (slice w (p - b - 2) c.loadImmUnusedBits) ∧
    decoderOf .add c w = .add ds opnd ∧ decoderOf .sub c w = .sub ds opnd ∧
    decoderOf .mul c w = .mul ds opnd ∧ decoderOf .shr c w = .shr ds opnd ∧
    decoderOf .shl c w = .shl ds opnd ∧
    decoderOf .and c w = .and first second ∧ decoderOf .or c w = .or first second ∧
    decoderOf .xor c w = .xor first second ∧ decoderOf .not c w = .not first

/-- The opcode map and the field ranges of the default configuration (30_encoding.md R72, R81; both
are derived by the spec, with the opcode numbers of its choice D5, log 11). -/
def Obligations.DefaultFieldPositions : Prop :=
  ∀ w : Nat, w < 65536 →
    let off := signExtend 16 6 (slice w 5 0)
    let opnd := if slice w 11 11 = 1 then
      Operand.imm (signExtend 16 8 (slice w 7 0)) else Operand.reg (slice w 7 0)
    (slice w 15 12 = 0 → decode defaultConfig w = .ok (.load (slice w 11 9) (slice w 8 6) off)) ∧
    (slice w 15 12 = 1 → decode defaultConfig w = .ok (.store (slice w 11 9) (slice w 8 6) off)) ∧
    (slice w 15 12 = 2 → decode defaultConfig w =
      .ok (.loadImmediate (slice w 11 9) (slice w 8 8 == 1) (slice w 7 0))) ∧
    (slice w 15 12 = 3 → decode defaultConfig w = .ok (.add (slice w 10 8) opnd)) ∧
    (slice w 15 12 = 4 → decode defaultConfig w = .ok (.sub (slice w 10 8) opnd)) ∧
    (slice w 15 12 = 5 → decode defaultConfig w = .ok (.mul (slice w 10 8) opnd)) ∧
    (slice w 15 12 = 6 → decode defaultConfig w = .ok (.shr (slice w 10 8) opnd)) ∧
    (slice w 15 12 = 7 → decode defaultConfig w = .ok (.shl (slice w 10 8) opnd)) ∧
    (slice w 15 12 = 8 → decode defaultConfig w = .ok (.and (slice w 11 9) (slice w 8 6))) ∧
    (slice w 15 12 = 9 → decode defaultConfig w = .ok (.or (slice w 11 9) (slice w 8 6))) ∧
    (slice w 15 12 = 10 → decode defaultConfig w = .ok (.xor (slice w 11 9) (slice w 8 6))) ∧
    (slice w 15 12 = 11 → decode defaultConfig w = .ok (.not (slice w 11 9))) ∧
    (12 ≤ slice w 15 12 → decode defaultConfig w = .error (.unknownInstruction (slice w 15 12)))

/-- Words written out in 95_test_vectors.md decode to the instructions it gives for them. -/
def Obligations.SampleWordsDecode : Prop :=
  decode defaultConfig 0x047E = .ok (.load 2 1 0xFFFE) ∧
  decode defaultConfig 0x1E3F = .ok (.store 7 0 0xFFFF) ∧
  decode defaultConfig 0x2FFF = .ok (.loadImmediate 7 true 0xFF) ∧
  decode defaultConfig 0x3880 = .ok (.add 0 (.imm 0xFF80)) ∧
  decode defaultConfig 0x3707 = .ok (.add 7 (.reg 7)) ∧
  decode defaultConfig 0x8E3F = .ok (.and 7 0) ∧
  decode defaultConfig 0xBFFF = .ok (.not 7) ∧
  decode defaultConfig 0xC000 = .error (.unknownInstruction 12)

/-! ## Memory -/

/-- A byte read after a byte write gives the written byte at its address and the old byte at every
other (00_scope.md R15, 20_memory.md R57). -/
def Obligations.ByteReadAfterWrite : Prop :=
  ∀ (m : Memory) (a x : Nat) (b : Byte), m.wf →
    readByte (writeByte m a b) x = if x = a then b else readByte m x

/-- Byte `k` of a value read or written at `a` is at address `a + k`, and a write changes no other
byte (20_memory.md R43). -/
def Obligations.StoredBytesAreLittleEndian : Prop :=
  ∀ (m : Memory) (a n v : Nat), m.wf →
    memRead m a n < 2 ^ (8 * n) ∧
    (∀ k, k < n → byteOf (memRead m a n) k = readByte m (a + k)) ∧
    (∀ k, k < n → readByte (memWrite m a n v) (a + k) = byteOf v k) ∧
    (∀ x, x < a ∨ a + n ≤ x → readByte (memWrite m a n v) x = readByte m x) ∧
    memRead (memWrite m a n v) a n = v % 2 ^ (8 * n)

/-- Two memories in the model's canonical form that read alike at every address are equal data. The form,
and the fill byte that an unlisted address reads as, are the model's own (log 2). -/
def Obligations.EqualContentsEqualMemory : Prop :=
  ∀ m m' : Memory, m.wf → m'.wf → (∀ a, readByte m a = readByte m' a) → m = m'

/-! ## load and store -/

/-- A `store` with a full access, then a `load` whose address is `j` bytes higher with `0 < j < RB`: byte
`k` of the loaded register is byte `j + k` of the stored register while that byte was stored, then the
byte of the old memory, and 0 past the end of memory where the load is a partial one; the store returns
`OK`, the load `OK` or `W_LAST_MEMORY_BYTE`, and the load changes only its destination. The first clause
says the same of `MemWrite` and `MemRead` for any number of bytes (20_memory.md R45, derived there). -/
def Obligations.OverlappingLoadSeesStoredBytes : Prop :=
  (∀ (m : Memory) (a n j v k : Nat), m.wf → k < n →
    byteOf (memRead (memWrite m a n v) (a + j) n) k =
      if j + k < n then byteOf v (j + k) else readByte m (a + j + k)) ∧
  (∀ (s t : State) (addr src off dst base off' j : Nat), s.Wf →
    (Instr.store addr src off).wellFormed s.cfg = true →
    (Instr.load dst base off').wellFormed s.cfg = true →
    let rb := s.cfg.registerBytes
    let size := s.cfg.memorySize
    let ea := effectiveAddress s addr off
    ea ≤ size - rb → exec (.store addr src off) s = .next t →
    0 < j → j < rb → effectiveAddress t base off' = ea + j →
    t.returned = some .ok ∧
    ∃ u, exec (.load dst base off') t = .next u ∧
      u.returned = some (if ea + j ≤ size - rb then .ok else .lastMemoryByte) ∧
      (∀ k, k < rb → byteOf (readReg u dst) k =
        if j + k < rb then byteOf (readReg s src) (j + k)
        else if ea + j + k < size then readByte s.mem (ea + j + k) else 0) ∧
      ChangesOnlyRegister dst t u)

/-- The effective address is the base register plus the signed offset mod `2^R`, so it lies in memory;
the offset of a decoded load or store is its sign-extended field (20_memory.md R46). -/
def Obligations.EffectiveAddressWraps : Prop :=
  (∀ (s : State) (base off : Nat),
    effectiveAddress s base off = (readReg s base + off) % 2 ^ s.cfg.registerBits ∧
    (effectiveAddress s base off : Int) =
      ((readReg s base : Int) + Word.signed s.cfg.registerBits off) % 2 ^ s.cfg.registerBits ∧
    effectiveAddress s base off < s.cfg.memorySize) ∧
  (∀ (c : Config) (w x y off : Nat),
    decode c w = .ok (.load x y off) ∨ decode c w = .ok (.store x y off) →
    off = signExtend c.registerBits c.offsetBits (slice w (c.offsetBits - 1) 0))

/-- `load` with a full access: every byte of the destination is the byte of memory at its place, the
status is `OK`, and only the destination changes (41_load_store.md R88, 20_memory.md R48). -/
def Obligations.LoadFullAccess : Prop :=
  ∀ (s : State) (dst base off : Nat), s.Wf →
    (Instr.load dst base off).wellFormed s.cfg = true →
    let ea := (readReg s base + off) % 2 ^ s.cfg.registerBits
    ea ≤ s.cfg.memorySize - s.cfg.registerBytes →
    ∃ t, exec (.load dst base off) s = .next t ∧ t.returned = some .ok ∧
      (∀ k, k < s.cfg.registerBytes → byteOf (readReg t dst) k = readByte s.mem (ea + k)) ∧
      readReg t dst < 2 ^ s.cfg.registerBits ∧ ChangesOnlyRegister dst s t

/-- `load` with a partial access: the bytes up to the end of memory fill the low bytes, the high bytes
are zero, nothing is read from address 0 on, the status is `W_LAST_MEMORY_BYTE`, and only the
destination changes (41_load_store.md R88, 20_memory.md R49, R50). -/
def Obligations.LoadPartialAccess : Prop :=
  ∀ (s : State) (dst base off : Nat), s.Wf →
    (Instr.load dst base off).wellFormed s.cfg = true →
    let ea := (readReg s base + off) % 2 ^ s.cfg.registerBits
    let n := s.cfg.memorySize - ea
    s.cfg.memorySize - s.cfg.registerBytes < ea →
    1 ≤ n ∧ n < s.cfg.registerBytes ∧
    ∃ t, exec (.load dst base off) s = .next t ∧ t.returned = some .lastMemoryByte ∧
      (∀ k, k < n → byteOf (readReg t dst) k = readByte s.mem (ea + k)) ∧
      (∀ k, n ≤ k → byteOf (readReg t dst) k = 0) ∧ ChangesOnlyRegister dst s t

/-- `store` with a full access: the register's bytes are stored little-endian at the effective
address, the status is `OK`, and nothing else changes (41_load_store.md R89, 20_memory.md R48). -/
def Obligations.StoreFullAccess : Prop :=
  ∀ (s : State) (addr src off : Nat), s.Wf →
    (Instr.store addr src off).wellFormed s.cfg = true →
    let ea := (readReg s addr + off) % 2 ^ s.cfg.registerBits
    ea ≤ s.cfg.memorySize - s.cfg.registerBytes →
    ∃ t, exec (.store addr src off) s = .next t ∧ t.returned = some .ok ∧
      (∀ k, k < s.cfg.registerBytes → readByte t.mem (ea + k) = byteOf (readReg s src) k) ∧
      ChangesOnlyBytes ea s.cfg.registerBytes s t

/-- `store` with a partial access: only the low bytes that fit are stored, none at address 0 on, the
status is `W_LAST_MEMORY_BYTE`, and nothing else changes (41_load_store.md R89, 20_memory.md R49,
R50). -/
def Obligations.StorePartialAccess : Prop :=
  ∀ (s : State) (addr src off : Nat), s.Wf →
    (Instr.store addr src off).wellFormed s.cfg = true →
    let ea := (readReg s addr + off) % 2 ^ s.cfg.registerBits
    let n := s.cfg.memorySize - ea
    s.cfg.memorySize - s.cfg.registerBytes < ea →
    1 ≤ n ∧ n < s.cfg.registerBytes ∧
    ∃ t, exec (.store addr src off) s = .next t ∧ t.returned = some .lastMemoryByte ∧
      (∀ k, k < n → readByte t.mem (ea + k) = byteOf (readReg s src) k) ∧
      ChangesOnlyBytes ea n s t

/-- No instruction returns `E_OUT_OF_MEMORY`, and every load and store, well formed or not, in every
state, gives a next state (20_memory.md R47, 90_conflicts.md C1; log 16). -/
def Obligations.OutOfMemoryNeverOccurs : Prop :=
  (∀ (i : Instr) (s t : State), exec i s = .next t → t.returned ≠ some .outOfMemory) ∧
  (∀ (s : State) (x y off : Nat),
    (∃ t, exec (.load x y off) s = .next t ∧
      (t.returned = some .ok ∨ t.returned = some .lastMemoryByte)) ∧
    (∃ t, exec (.store x y off) s = .next t ∧
      (t.returned = some .ok ∨ t.returned = some .lastMemoryByte)))

/-- A store then a load from the same effective address gives the register's value back, and at a
partial address its low bytes with the warning from both (41_load_store.md R90, derived there). -/
def Obligations.StoreThenLoadReturnsRegister : Prop :=
  ∀ (s t : State) (addr src off dst base off' : Nat), s.Wf →
    (Instr.store addr src off).wellFormed s.cfg = true →
    (Instr.load dst base off').wellFormed s.cfg = true →
    let ea := effectiveAddress s addr off
    exec (.store addr src off) s = .next t → effectiveAddress t base off' = ea →
    ∃ u, exec (.load dst base off') t = .next u ∧ u.returned = t.returned ∧
      (ea ≤ s.cfg.memorySize - s.cfg.registerBytes →
        t.returned = some .ok ∧ readReg u dst = readReg s src) ∧
      (s.cfg.memorySize - s.cfg.registerBytes < ea →
        t.returned = some .lastMemoryByte ∧
        readReg u dst = readReg s src % 2 ^ (8 * (s.cfg.memorySize - ea)))

/-- A load then a store of the same register to the same effective address leaves every byte of memory
as it was, at full and at partial addresses (41_load_store.md R90, derived there). -/
def Obligations.LoadThenStoreKeepsMemory : Prop :=
  ∀ (s t : State) (dst base off addr off' : Nat), s.Wf →
    (Instr.load dst base off).wellFormed s.cfg = true →
    (Instr.store addr dst off').wellFormed s.cfg = true →
    exec (.load dst base off) s = .next t →
    effectiveAddress t addr off' = effectiveAddress s base off →
    ∃ u, exec (.store addr dst off') t = .next u ∧
      ∀ x, readByte u.mem x = readByte s.mem x

/-! ## load_immediate -/

/-- `load_immediate` replaces the upper or the lower half of the destination with `data`, keeps the
other half, returns `OK`, and changes nothing else (42_load_immediate.md R91). -/
def Obligations.LoadImmediateReplacesOneHalf : Prop :=
  ∀ (s : State) (dst : Nat) (isUpper : Bool) (data : Nat), s.Wf →
    (Instr.loadImmediate dst isUpper data).wellFormed s.cfg = true →
    let h := s.cfg.halfBits
    ∃ t, exec (.loadImmediate dst isUpper data) s = .next t ∧ t.returned = some .ok ∧
      readReg t dst = (if isUpper then data * 2 ^ h + readReg s dst % 2 ^ h
        else readReg s dst / 2 ^ h * 2 ^ h + data) ∧
      ChangesOnlyRegister dst s t

/-- Two `load_immediate`s, one for each half and in either order, set the whole register
(42_load_immediate.md R92, derived there). -/
def Obligations.LoadImmediatePairBuildsWord : Prop :=
  ∀ (s : State) (d a b : Nat), s.Wf →
    (Instr.loadImmediate d false a).wellFormed s.cfg = true →
    (Instr.loadImmediate d true b).wellFormed s.cfg = true →
    (∃ t u, exec (.loadImmediate d false a) s = .next t ∧
      exec (.loadImmediate d true b) t = .next u ∧
      readReg u d = b * 2 ^ s.cfg.halfBits + a ∧ ChangesOnlyRegister d s u) ∧
    (∃ t u, exec (.loadImmediate d true b) s = .next t ∧
      exec (.loadImmediate d false a) t = .next u ∧
      readReg u d = b * 2 ^ s.cfg.halfBits + a ∧ ChangesOnlyRegister d s u)

/-! ## Arithmetic and shift -/

/-- `add` in both operand forms: the sum mod `2^R`, status `OK`, only the destination changes
(43_arith_shift.md R93, R94). -/
def Obligations.AddWrapsAndCompletes : Prop :=
  ∀ (s : State) (ds : Nat) (o : Operand) (v : Nat), s.Wf →
    (Instr.add ds o).wellFormed s.cfg = true → OperandDenotes s o v →
    ∃ t, exec (.add ds o) s = .next t ∧ t.returned = some .ok ∧
      readReg t ds = (readReg s ds + v) % 2 ^ s.cfg.registerBits ∧ ChangesOnlyRegister ds s t

/-- `sub` in both operand forms: the difference mod `2^R`, never negative, status `OK`, only the
destination changes (43_arith_shift.md R93, R95). -/
def Obligations.SubWrapsAndCompletes : Prop :=
  ∀ (s : State) (ds : Nat) (o : Operand) (v : Nat), s.Wf →
    (Instr.sub ds o).wellFormed s.cfg = true → OperandDenotes s o v →
    ∃ t, exec (.sub ds o) s = .next t ∧ t.returned = some .ok ∧
      (readReg t ds : Int) = ((readReg s ds : Int) - v) % 2 ^ s.cfg.registerBits ∧
      ChangesOnlyRegister ds s t

/-- `mul` in both operand forms: the low `R` bits of the product, status `OK`, only the destination
changes (43_arith_shift.md R93, R96). -/
def Obligations.MulWrapsAndCompletes : Prop :=
  ∀ (s : State) (ds : Nat) (o : Operand) (v : Nat), s.Wf →
    (Instr.mul ds o).wellFormed s.cfg = true → OperandDenotes s o v →
    ∃ t, exec (.mul ds o) s = .next t ∧ t.returned = some .ok ∧
      readReg t ds = readReg s ds * v % 2 ^ s.cfg.registerBits ∧ ChangesOnlyRegister ds s t

/-- The product that `mul` leaves is the same when both operands are read signed (43_arith_shift.md
R96, derived there). -/
def Obligations.MulIgnoresSignedness : Prop :=
  ∀ (s : State) (ds : Nat) (o : Operand) (v : Nat), s.Wf →
    (Instr.mul ds o).wellFormed s.cfg = true → OperandDenotes s o v →
    ∃ t, exec (.mul ds o) s = .next t ∧
      (readReg t ds : Int) =
        Word.signed s.cfg.registerBits (readReg s ds) * Word.signed s.cfg.registerBits v %
          2 ^ s.cfg.registerBits

/-- `shr` by an amount of at most `R`, in both operand forms: zeros come in at the top, status `OK`,
only the destination changes (43_arith_shift.md R93, R97). -/
def Obligations.ShrInRangeCompletes : Prop :=
  ∀ (s : State) (ds : Nat) (o : Operand) (v : Nat), s.Wf →
    (Instr.shr ds o).wellFormed s.cfg = true → OperandDenotes s o v → v ≤ s.cfg.registerBits →
    ∃ t, exec (.shr ds o) s = .next t ∧ t.returned = some .ok ∧
      readReg t ds = readReg s ds / 2 ^ v ∧ ChangesOnlyRegister ds s t

/-- `shl` by an amount of at most `R`, in both operand forms: truncated to `R` bits, status `OK`, only
the destination changes (43_arith_shift.md R93, R98). -/
def Obligations.ShlInRangeCompletes : Prop :=
  ∀ (s : State) (ds : Nat) (o : Operand) (v : Nat), s.Wf →
    (Instr.shl ds o).wellFormed s.cfg = true → OperandDenotes s o v → v ≤ s.cfg.registerBits →
    ∃ t, exec (.shl ds o) s = .next t ∧ t.returned = some .ok ∧
      readReg t ds = readReg s ds * 2 ^ v % 2 ^ s.cfg.registerBits ∧ ChangesOnlyRegister ds s t

/-- A shift by more than `R` returns `E_SHIFT_RANGE` and changes nothing (43_arith_shift.md R97, R98,
60_exceptions.md R117); that the phase becomes `Idle` is the spec's choice D12 (log 15). -/
def Obligations.ShiftOutOfRangeChangesNothing : Prop :=
  ∀ (s : State) (ds : Nat) (o : Operand) (v : Nat), OperandDenotes s o v →
    s.cfg.registerBits < v →
    (∃ t, exec (.shr ds o) s = .next t ∧ t.returned = some .shiftRange ∧ t.phase = .idle ∧
      t.latch = none ∧ ChangesNothing s t) ∧
    (∃ t, exec (.shl ds o) s = .next t ∧ t.returned = some .shiftRange ∧ t.phase = .idle ∧
      t.latch = none ∧ ChangesNothing s t)

/-- Every negative immediate amount is rejected, and every amount from 0 to `R` can be encoded as an
immediate (43_arith_shift.md R99, derived there). -/
def Obligations.NegativeShiftImmediateIsRejected : Prop :=
  (∀ (s : State) (ds w : Nat), (Instr.shr ds (.imm w)).wellFormed s.cfg = true →
    w.testBit (s.cfg.registerBits - 1) = true →
    (∃ t, exec (.shr ds (.imm w)) s = .next t ∧ t.returned = some .shiftRange ∧
      ChangesNothing s t) ∧
    (∃ t, exec (.shl ds (.imm w)) s = .next t ∧ t.returned = some .shiftRange ∧
      ChangesNothing s t)) ∧
  (∀ (c : Config) (n : Nat), n ≤ c.registerBits → (Operand.imm n).wellFormed c = true)

/-- The register form of the arithmetic/shift instructions with an operand that names no register is
the model fault, before the shift range is looked at (60_exceptions.md R120, R125, the spec's choice
D8; log 13). -/
def Obligations.BadRegisterOperandFaults : Prop :=
  ∀ (s : State) (ds k : Nat), s.cfg.registerCount ≤ k →
    exec (.add ds (.reg k)) s = .fault .badRegisterIndex ∧
    exec (.sub ds (.reg k)) s = .fault .badRegisterIndex ∧
    exec (.mul ds (.reg k)) s = .fault .badRegisterIndex ∧
    exec (.shr ds (.reg k)) s = .fault .badRegisterIndex ∧
    exec (.shl ds (.reg k)) s = .fault .badRegisterIndex

/-! ## Bitwise operations -/

/-- `and`, `or` and `xor`: each bit of the destination is the operation on the two registers' bits,
status `OK`, only the destination changes (44_bitwise.md R100 to R102). -/
def Obligations.BitwiseTwoRegisterCompletes : Prop :=
  ∀ (s : State) (dst src : Nat), s.Wf → dst < s.cfg.registerCount → src < s.cfg.registerCount →
    (∃ t, exec (.and dst src) s = .next t ∧ t.returned = some .ok ∧
      (∀ k, (readReg t dst).testBit k = ((readReg s dst).testBit k && (readReg s src).testBit k)) ∧
      ChangesOnlyRegister dst s t) ∧
    (∃ t, exec (.or dst src) s = .next t ∧ t.returned = some .ok ∧
      (∀ k, (readReg t dst).testBit k = ((readReg s dst).testBit k || (readReg s src).testBit k)) ∧
      ChangesOnlyRegister dst s t) ∧
    (∃ t, exec (.xor dst src) s = .next t ∧ t.returned = some .ok ∧
      (∀ k, (readReg t dst).testBit k =
        Bool.xor ((readReg s dst).testBit k) ((readReg s src).testBit k)) ∧
      ChangesOnlyRegister dst s t)

/-- `not`: the destination becomes `ALL1` minus its old value, which is its complement, status `OK`,
only the destination changes, and a second `not` restores it (44_bitwise.md R103). -/
def Obligations.NotComplementsAndRestores : Prop :=
  ∀ (s : State) (ds : Nat), s.Wf → ds < s.cfg.registerCount →
    ∃ t, exec (.not ds) s = .next t ∧ t.returned = some .ok ∧
      readReg t ds = 2 ^ s.cfg.registerBits - 1 - readReg s ds ∧ ChangesOnlyRegister ds s t ∧
      ∃ u, exec (.not ds) t = .next u ∧ u.regs = s.regs

/-- The expansions `nop`, `clr`, `mov` and `neg` do what 30_encoding.md R86 says of them (they are the
spec's own, D18). -/
def Obligations.PseudoInstructionsDoTheirWork : Prop :=
  ∀ (s : State) (d r : Nat), s.Wf → d < s.cfg.registerCount → r < s.cfg.registerCount →
    (∃ t, exec (.or 0 0) s = .next t ∧ t.regs = s.regs ∧ t.mem = s.mem) ∧
    (∃ t, exec (.xor d d) s = .next t ∧ readReg t d = 0 ∧ ChangesOnlyRegister d s t) ∧
    (d ≠ r → ∃ t u, exec (.xor d d) s = .next t ∧ exec (.or d r) t = .next u ∧
      readReg u d = readReg s r ∧ ChangesOnlyRegister d s u) ∧
    (∃ t u, exec (.not d) s = .next t ∧ exec (.add d (.imm 1)) t = .next u ∧
      readReg u d = (2 ^ s.cfg.registerBits - readReg s d) % 2 ^ s.cfg.registerBits ∧
      ChangesOnlyRegister d s u)

/-! ## The Dispatcher -/

/-- A step performs the oldest call and takes it from the queue.
A decode of a word that decodes to `i` puts `i` in the latch, phase `Decoded`, status `OK`; of a word of
an unregistered opcode, it empties the latch, phase `Idle`, status `E_DECODE_UNKNOWN`. An execute in
phase `Decoded` is `exec` of the latch; in any other phase it returns `E_EXEC_UNKNOWN` and changes
nothing else. A cycle is `exec` of the decoded instruction in the state after its decode, or that
rejected decode alone. A decode and an execute are those that the other statements speak of, and the
table word that the host places is a cycle (45_dispatcher.md R106, R107, R109, R111, R113, R114; the
queue and the cycle as one call are the model's, logs 4 and 5). -/
def Obligations.StepRunsDecodedInstruction : Prop :=
  (∀ (s : State) (w : Nat) (rest : List Call) (i : Instr), decode s.cfg w = .ok i →
    let decoded : State :=
      { s with calls := rest, phase := .decoded, latch := some i, returned := some .ok }
    (s.calls = .decode w :: rest → step s = .next decoded) ∧
    (s.calls = .cycle w :: rest → step s = exec i decoded)) ∧
  (∀ (s : State) (w : Nat) (rest : List Call) (e : DecodeError), decode s.cfg w = .error e →
    let rejected : State :=
      { s with calls := rest, phase := .idle, latch := none, returned := some .decodeUnknown }
    (s.calls = .decode w :: rest → step s = .next rejected) ∧
    (s.calls = .cycle w :: rest → step s = .next rejected)) ∧
  (∀ (s : State) (rest : List Call), s.calls = .execute :: rest →
    (∀ i, s.phase = .decoded → s.latch = some i → step s = exec i { s with calls := rest }) ∧
    (s.phase ≠ .decoded →
      step s = .next { s with calls := rest, returned := some .execUnknown }) ∧
    step s = executeTransaction { s with calls := rest }) ∧
  (∀ (s : State) (w : Nat) (rest : List Call), s.calls = .decode w :: rest →
    step s = .next (decodeTransaction w { s with calls := rest })) ∧
  (∀ (s : State) (nbits w : Nat),
    (∀ i, decode s.cfg (w % 2 ^ nbits % 2 ^ s.cfg.registerBits) = .ok i →
      step (s.withFetchWord nbits w) =
        exec i { s with phase := .decoded, latch := some i, returned := some .ok }) ∧
    (∀ e, decode s.cfg (w % 2 ^ nbits % 2 ^ s.cfg.registerBits) = .error e →
      step (s.withFetchWord nbits w) =
        .next { s with phase := .idle, latch := none, returned := some .decodeUnknown }))

/-- The decoder of a registered opcode reads only the word and the configuration, writes only the
latch, touches neither registers nor memory, and always returns success (30_encoding.md R79). -/
def Obligations.RegisteredDecoderNeverFails : Prop :=
  ∀ (s s' : State) (w : Nat), s.cfg = s'.cfg →
    (∃ m, registrationOrder[opcodeIndex s.cfg w]? = some m) →
    ∃ i, decode s.cfg w = .ok i ∧
      (decodeTransaction w s).latch = some i ∧ (decodeTransaction w s').latch = some i ∧
      (decodeTransaction w s).returned = some .ok ∧ ChangesNothing s (decodeTransaction w s)

/-- A decode of a registered opcode is accepted in every phase, sets `Decoded`, and replaces what an
earlier decode left: only the most recently decoded instruction can be executed (45_dispatcher.md
R107, R108, the spec's choice D11; log 15). -/
def Obligations.LatestDecodeReplacesLatch : Prop :=
  ∀ (s : State) (w w' : Nat),
    decodeTransaction w' (decodeTransaction w s) = decodeTransaction w' s ∧
    (opcodeIndex s.cfg w' < 12 →
      (decodeTransaction w' s).phase = .decoded ∧
      ∃ i, decode s.cfg w' = .ok i ∧
        executeTransaction (decodeTransaction w' (decodeTransaction w s)) =
          exec i (decodeTransaction w' s))

/-- An execute outside phase `Decoded` returns `E_EXEC_UNKNOWN` and changes no register, memory, phase
or latch (45_dispatcher.md R111, with the spec's choice D10; log 15). -/
def Obligations.ExecuteOutsideDecodedReturnsError : Prop :=
  ∀ s : State, s.phase ≠ .decoded →
    ∃ t, executeTransaction s = .next t ∧ t.returned = some .execUnknown ∧
      t.phase = s.phase ∧ t.latch = s.latch ∧ ChangesNothing s t

/-- Every execute that gives a next state consumes the latch and returns one of three statuses: after
`E_SHIFT_RANGE` the phase is `Idle` and nothing was written, after `OK` or `W_LAST_MEMORY_BYTE` it is
`Executed` (45_dispatcher.md R110, R113, the spec's choices D10 and D12, log 15). `E_OUT_OF_MEMORY` is
not among them because no address reaches it (20_memory.md R47, 90_conflicts.md C1; log 16). -/
def Obligations.ExecuteEndsByStatusClass : Prop :=
  ∀ (i : Instr) (s t : State), exec i s = .next t →
    t.latch = none ∧ t.cfg = s.cfg ∧ t.calls = s.calls ∧
    (t.phase = .idle ∧ t.returned = some .shiftRange ∧ ChangesNothing s t ∨
      t.phase = .executed ∧ (t.returned = some .ok ∨ t.returned = some .lastMemoryByte))

/-- An instruction is executed at most once per decode: a second execute returns `E_EXEC_UNKNOWN` and
changes nothing else (45_dispatcher.md R111, the spec's choice D10; log 15). -/
def Obligations.InstructionExecutesAtMostOnce : Prop :=
  ∀ s t : State, executeTransaction s = .next t →
    executeTransaction t = .next { t with returned := some .execUnknown }

/-! ## The whole machine -/

/-- A hard error is precise: a step that returns one leaves registers, memory and configuration as they
were. A warning is not: some step returns one with memory changed (60_exceptions.md R122). That the
step takes its call from the queue and nothing else of it is the model's own, as is a failing cycle as
one call (logs 4 and 5). -/
def Obligations.HardErrorsArePrecise : Prop :=
  (∀ (s t : State) (st : Status), s.calls ≠ [] → step s = .next t → t.returned = some st →
    st.isHardError = true →
    t.regs = s.regs ∧ t.mem = s.mem ∧ t.cfg = s.cfg ∧ t.calls = s.calls.tail) ∧
  (∃ s t : State, s.Wf ∧ step s = .next t ∧ t.returned = some .lastMemoryByte ∧ t.mem ≠ s.mem)

/-- Every step keeps the invariant: register count and range, canonical memory in its address space,
the latch full exactly in phase `Decoded`, its instruction well formed (10_state.md R24, R28, R35,
R36; the canonical form of memory is the model's, log 2). -/
def Obligations.StepKeepsWellFormed : Prop :=
  ∀ s t : State, s.Wf → step s = .next t → t.Wf

/-- From every construction, with every launch input and every sequence of calls, every state of the
run is well formed and has the configuration it was built with (10_state.md R19, R22, R24, R28). -/
def Obligations.EveryRunStaysWellFormed : Prop :=
  ∀ (p : Params) (initRegs : Nat → Nat) (initMem : Nat → Byte) (s t : State)
    (calls : List Call) (n : Nat), construct p initRegs initMem = .ok s →
    runSteps n { s with calls := calls } = .next t →
    t.Wf ∧ t.cfg.toParams = p

/-- No step changes the configuration, each takes exactly the oldest call, and with no call pending the
state is held (10_state.md R19, 60_exceptions.md R131; the queue of calls is the model's, log 4). -/
def Obligations.RunKeepsConfigurationAndTakesCalls : Prop :=
  (∀ (n : Nat) (s t : State), runSteps n s = .next t →
    t.cfg = s.cfg ∧ t.calls = s.calls.drop n) ∧
  (∀ (n : Nat) (s : State), s.calls = [] → runSteps n s = .next s)

/-- Registers are written only by executors, each of which writes only its destination; `store` is the
one instruction without a destination, and a decode neither reads nor writes a register
(10_state.md R26). -/
def Obligations.OnlyDestinationIsWritten : Prop :=
  (∀ (i : Instr) (s t : State) (r : Nat), exec i s = .next t → destination i ≠ some r →
    readReg t r = readReg s r) ∧
  (∀ i : Instr, destination i = none ↔ ∃ addr src off, i = .store addr src off) ∧
  (∀ (w : Nat) (s : State), (decodeTransaction w s).regs = s.regs) ∧
  (∀ (w : Nat) (s : State) (regs : List Nat),
    decodeTransaction w { s with regs := regs } = { decodeTransaction w s with regs := regs }) ∧
  (∀ s t : State, step s = .next t → nextExecuted s = none → t.regs = s.regs)

/-- Memory has `2^R` bytes, and only a step that executes a `store` changes one of them
(10_state.md R28). -/
def Obligations.OnlyStoreWritesMemory : Prop :=
  (∀ s : State, s.cfg.memorySize = 2 ^ s.cfg.registerBits) ∧
  (∀ s t : State, step s = .next t →
    (∀ addr src off, nextExecuted s ≠ some (.store addr src off)) →
    ∀ x, readByte t.mem x = readByte s.mem x) ∧
  (∀ s t : State, step s = .next t → ∀ x, s.cfg.memorySize ≤ x → s.Wf →
    readByte t.mem x = readByte s.mem x)

/-- The machine stops only at the model fault `BadRegisterIndex`, and exactly when the next step
executes an arithmetic/shift instruction whose operand names no register; otherwise it steps
(60_exceptions.md R125, 93_implementation_defined.md; the fault is the spec's choice D8, log 13). -/
def Obligations.StepFaultsExactlyOnBadRegisterOperand : Prop :=
  ∀ s : State,
    ((∃ i, nextExecuted s = some i ∧ namesNoRegister s.cfg i) →
      step s = .fault .badRegisterIndex) ∧
    ((¬ ∃ i, nextExecuted s = some i ∧ namesNoRegister s.cfg i) → StepSafe s)

/-- Every transaction returns a status, and none reads the status that an earlier one returned
(10_state.md R32). -/
def Obligations.StatusIsReturnedAndNeverRead : Prop :=
  ∀ s : State, s.calls ≠ [] →
    (∀ t, step s = .next t → t.returned.isSome = true) ∧
    (∀ r, step { s with returned := r } = step s)

/-- The number of a status lies in its class and in no other: below -500 for a hard error, in
`[-500, 0)` for a warning, 0 for success (10_state.md R33). -/
def Obligations.StatusNumbersFollowClasses : Prop :=
  ∀ st : Status,
    (st.classOf = .hardError ↔ st.value < -500) ∧
    (st.classOf = .warning ↔ -500 ≤ st.value ∧ st.value < 0) ∧
    (st.classOf = .success ↔ st.value = 0) ∧
    (st.isHardError = true ↔ st.value < -500)

/-- The free part of `STATUS_VALUES` leaves every admissible number possible: each number of a class is
the class's number for some free value (60_exceptions.md R118, the spec's D9; log 12). -/
def Obligations.EveryAdmissibleStatusNumberIsPossible : Prop :=
  ∀ n : Int,
    (n < -500 → ∃ k, StatusClass.number .hardError k = n) ∧
    (-500 ≤ n ∧ n < 0 → ∃ k, StatusClass.number .warning k = n) ∧
    (n = 0 → ∃ k, StatusClass.number .success k = n)

/-- The reference driver and the machine agree: a run of the driver to its end, or to the hard error it
stops at, or to the fault, is that many steps with the program's cycles as the pending calls, and the
warnings it collects are warnings (45_dispatcher.md R114, the spec's D15; log 5). -/
def Obligations.DriverAgreesWithSteps : Prop :=
  ∀ (prog : List Nat) (s : State),
    let start : State := { s with calls := prog.map Call.cycle ++ s.calls }
    (∀ n warnings t, runProgram prog s = .done n warnings t →
      n = prog.length ∧ runSteps n start = .next t ∧
      ∀ x ∈ warnings, x.2 = .lastMemoryByte) ∧
    (∀ k st warnings t, runProgram prog s = .stop k st warnings t →
      k < prog.length ∧ st.isHardError = true ∧ t.returned = some st ∧
      runSteps (k + 1) start =
        .next { t with calls := (prog.drop (k + 1)).map Call.cycle ++ s.calls } ∧
      ∀ x ∈ warnings, x.2 = .lastMemoryByte) ∧
    (∀ k f, runProgram prog s = .faulted k f →
      k < prog.length ∧ runSteps (k + 1) start = .fault f) ∧
    (∀ k r, runProgram prog s ≠ .declined k r)
end

