-- ==== Sys2Proof/Laws/Encoding.lean ====
section
/-! SUPPORT. The widths and values of the encoder's fields, and the small lemmas of concatenation. -/

namespace Sys2Proof

/-- Every field of the list holds a value of its width. -/
def FieldsFit (fs : List (Nat × Nat)) : Prop := ∀ f ∈ fs, f.2 < 2 ^ f.1

@[simp] theorem FieldsFit_nil : FieldsFit [] := by simp [FieldsFit]

@[simp] theorem FieldsFit_cons (f : Nat × Nat) (fs : List (Nat × Nat)) :
    FieldsFit (f :: fs) ↔ f.2 < 2 ^ f.1 ∧ FieldsFit fs := by simp [FieldsFit]

@[simp] theorem concatFields_nil : concatFields [] = 0 := rfl

theorem concatFields_cons (k v : Nat) (fs : List (Nat × Nat)) :
    concatFields ((k, v) :: fs) = v * 2 ^ (fs.map Prod.fst).sum + concatFields fs := rfl

/-- A concatenation of fields that fit is a word of the total width. -/
theorem concatFields_lt {fs : List (Nat × Nat)} (h : FieldsFit fs) :
    concatFields fs < 2 ^ (fs.map Prod.fst).sum := by
  induction fs with
  | nil => simp
  | cons f fs ih =>
    obtain ⟨k, v⟩ := f
    obtain ⟨hv, hfs⟩ := (FieldsFit_cons _ _).mp h
    have h1 := ih hfs
    rw [concatFields_cons, List.map_cons, List.sum_cons, pow_add]
    calc v * 2 ^ (fs.map Prod.fst).sum + concatFields fs
        < v * 2 ^ (fs.map Prod.fst).sum + 2 ^ (fs.map Prod.fst).sum := by omega
      _ = (v + 1) * 2 ^ (fs.map Prod.fst).sum := by ring
      _ ≤ 2 ^ k * 2 ^ (fs.map Prod.fst).sum := Nat.mul_le_mul_right _ hv

/-- A register index in range fits its field, because the register count is `2^B`. -/
theorem registerInRange_iff (c : Config) (i : Nat) :
    registerInRange c i = true ↔ i < 2 ^ c.bitsForRegister := by
  rw [registerInRange, decide_eq_true_iff, c.valid.1.2]

/-- The operand fields of a well-formed instruction fit, and fill the part below the opcode. -/
theorem operandFields_fit {c : Config} {i : Instr} (h : i.wellFormed c = true) :
    FieldsFit (operandFields c i) ∧
      ((operandFields c i).map Prod.fst).sum = c.bitsBelowOpcode := by
  obtain ⟨-, -, -, ⟨hm, ha⟩, hl, -⟩ := c.valid
  have hmod : ∀ v n : Nat, v % 2 ^ n < 2 ^ n := fun v n => Nat.mod_lt _ (Nat.two_pow_pos n)
  have arith : ∀ {ds : Nat} {o : Operand},
      (registerInRange c ds && o.wellFormed c) = true →
      FieldsFit (arithFields c ds o) ∧
        ((arithFields c ds o).map Prod.fst).sum = c.bitsBelowOpcode := by
    intro ds o h
    rw [Bool.and_eq_true, registerInRange_iff] at h
    have hwidth : 1 + (c.bitsForRegister + c.operandBits) = c.bitsBelowOpcode := by
      simp only [Params.operandBits, Params.bitsBelowOpcode]
      omega
    cases o with
    | imm v => exact ⟨by simp [arithFields, h.1, hmod], by simpa [arithFields] using hwidth⟩
    | reg k =>
      have hk : k < 2 ^ c.operandBits := by simpa [Operand.wellFormed] using h.2
      exact ⟨by simp [arithFields, h.1, hk], by simpa [arithFields] using hwidth⟩
  have two : ∀ {a b v : Nat}, (registerInRange c a && registerInRange c b) = true →
      v < 2 ^ c.offsetBits →
      FieldsFit [(c.bitsForRegister, a), (c.bitsForRegister, b), (c.offsetBits, v)] ∧
        (([(c.bitsForRegister, a), (c.bitsForRegister, b), (c.offsetBits, v)] :
          List (Nat × Nat)).map Prod.fst).sum = c.bitsBelowOpcode := by
    intro a b v h hv
    rw [Bool.and_eq_true, registerInRange_iff, registerInRange_iff] at h
    refine ⟨by simp [h, hv], ?_⟩
    simp [Params.offsetBits, Params.bitsBelowOpcode]
    omega
  cases i with
  | load dst base off => exact two (Bool.and_eq_true _ _ ▸ h).1 (hmod _ _)
  | store addr src off => exact two (Bool.and_eq_true _ _ ▸ h).1 (hmod _ _)
  | loadImmediate dst isUpper data =>
    simp only [Instr.wellFormed, Bool.and_eq_true, registerInRange_iff, decide_eq_true_iff] at h
    refine ⟨?_, ?_⟩
    · cases isUpper <;> simp [operandFields, h]
    · simp [operandFields, Params.loadImmUnusedBits, Params.halfBits, Params.bitsBelowOpcode]
      omega
  | add ds o => exact arith h
  | sub ds o => exact arith h
  | mul ds o => exact arith h
  | shr ds o => exact arith h
  | shl ds o => exact arith h
  | and dst src => exact two h (Nat.two_pow_pos _)
  | or dst src => exact two h (Nat.two_pow_pos _)
  | xor dst src => exact two h (Nat.two_pow_pos _)
  | not ds =>
    simp only [Instr.wellFormed, registerInRange_iff] at h
    refine ⟨by simp [operandFields, h], ?_⟩
    simp [operandFields, Params.bitsBelowOpcode]
    omega

/-- Every instruction is registered, in an opcode space of at least 16 slots. -/
theorem opcodeOf_lt (c : Config) (m : Mnemonic) : opcodeOf m < 2 ^ c.bitsForOpcode := by
  have h1 : opcodeOf m < 16 := by cases m <;> decide
  have h2 := c.valid.2.2.1
  rw [c.valid.1.1] at h2
  omega

/-- The table entry at the opcode index of an instruction. -/
theorem registrationOrder_opcodeOf (m : Mnemonic) : registrationOrder[opcodeOf m]? = some m := by
  cases m <;> rfl

/-- A field of width 0 has value 0. -/
@[simp] theorem field_zero_width (w lo : Nat) : field w lo 0 = 0 := by simp [field, Nat.mod_one]

/-- A field value lies below `2^width`. -/
theorem field_lt (w lo width : Nat) : field w lo width < 2 ^ width :=
  Nat.mod_lt _ (Nat.two_pow_pos _)

/-- The field just above the low `lo` bits of a word assembled as a high part and a low part. -/
theorem field_high {hi low lo width : Nat} (h : low < 2 ^ lo) :
    field (hi * 2 ^ lo + low) lo width = hi % 2 ^ width := by
  rw [field, Nat.mul_comm, Nat.mul_add_div (Nat.two_pow_pos lo), Nat.div_eq_of_lt h, Nat.add_zero]

end Sys2Proof
end

