-- ==== Sys2Proof/Laws/Memory.lean ====
section
/-! SUPPORT. The memory operations keep the canonical form and the address space. -/

namespace Sys2Proof.Machine

/-- An entry of the memory after a write is the written byte or an entry of the memory before. -/
theorem mem_writeByte {m : Memory} {a : Nat} {b : Byte} {x : Host.Cell}
    (h : x ∈ writeByte m a b) : x = (a, b) ∧ b ≠ Config.fillByte ∨ x ∈ m := by
  induction m with
  | nil =>
    simp only [writeByte] at h
    split at h <;> simp_all
  | cons y rest ih =>
    obtain ⟨k, v⟩ := y
    simp only [writeByte] at h
    split at h
    · rcases List.mem_cons.mp h with rfl | h
      · exact .inr (by simp)
      · rcases ih h with h | h
        · exact .inl h
        · exact .inr (by simp [h])
    · split at h <;> split at h <;> simp only [List.mem_cons] at h ⊢ <;> tauto

/-- A byte write keeps the canonical form. -/
theorem writeByte_wf {m : Memory} (h : m.wf) (a : Nat) (b : Byte) : (writeByte m a b).wf := by
  induction m with
  | nil =>
    simp only [writeByte]
    split <;> simp_all [Memory.wf]
  | cons y rest ih =>
    obtain ⟨k, v⟩ := y
    obtain ⟨hs, hf⟩ := h
    rw [List.pairwise_cons] at hs
    have hrest : Memory.wf rest := ⟨hs.2, fun x hx => hf x (by simp [hx])⟩
    have hv : v ≠ Config.fillByte := hf (k, v) (by simp)
    simp only [writeByte]
    split
    · rename_i hka
      obtain ⟨ih1, ih2⟩ := ih hrest
      refine ⟨List.pairwise_cons.mpr ⟨fun x hx => ?_, ih1⟩, fun x hx => ?_⟩
      · rcases mem_writeByte hx with ⟨rfl, -⟩ | hx
        · exact hka
        · exact hs.1 x hx
      · rcases List.mem_cons.mp hx with rfl | hx
        · exact hv
        · exact ih2 x hx
    · rename_i hka
      split
      · split
        · exact hrest
        · exact ⟨List.pairwise_cons.mpr hs, hf⟩
      · rename_i hb
        split
        · rename_i hk
          refine ⟨List.pairwise_cons.mpr ⟨fun x hx => hk ▸ hs.1 x hx, hrest.1⟩, fun x hx => ?_⟩
          rcases List.mem_cons.mp hx with rfl | hx
          · exact hb
          · exact hrest.2 x hx
        · rename_i hk
          refine ⟨List.pairwise_cons.mpr ⟨fun x hx => ?_, List.pairwise_cons.mpr hs⟩,
            fun x hx => ?_⟩
          · rcases List.mem_cons.mp hx with rfl | hx
            · exact Nat.lt_of_le_of_ne (Nat.le_of_not_lt hka) (Ne.symm hk)
            · exact Nat.lt_of_le_of_lt (Nat.le_of_not_lt hka) (hs.1 x hx)
          · rcases List.mem_cons.mp hx with rfl | hx
            · exact hb
            · exact hf x hx

/-- A byte write below `size` keeps the memory below `size`. -/
theorem writeByte_inBounds {m : Memory} {size a : Nat} (h : m.inBounds size) (ha : a < size)
    (b : Byte) : (writeByte m a b).inBounds size := by
  intro x hx
  rcases mem_writeByte hx with ⟨rfl, -⟩ | hx
  · exact ha
  · exact h x hx

/-- A store keeps the canonical form. -/
theorem memWrite_wf {m : Memory} (h : m.wf) (a n : Nat) (v : Nat) : (memWrite m a n v).wf := by
  induction n generalizing m a v with
  | zero => exact h
  | succ n ih => exact ih (writeByte_wf h _ _) _ _

/-- A store that lies below `size` keeps the memory below `size`. -/
theorem memWrite_inBounds {m : Memory} {size a n : Nat} (h : m.inBounds size) (ha : a + n ≤ size)
    (v : Nat) : (memWrite m a n v).inBounds size := by
  induction n generalizing m a v with
  | zero => exact h
  | succ n ih => exact ih (writeByte_inBounds h (by omega) _) (by omega) _

/-- The launch memory is canonical. -/
theorem memoryOf_wf (size : Nat) (contents : Nat → Byte) : (memoryOf size contents).wf := by
  refine ⟨?_, fun x hx => ?_⟩
  · rw [memoryOf, List.pairwise_filterMap]
    refine List.pairwise_lt_range.imp fun {a b} hab x hx y hy => ?_
    simp only [Option.ite_none_left_eq_some, Option.some.injEq] at hx hy
    simp [← hx.2, ← hy.2, hab]
  · obtain ⟨a, -, ha⟩ := List.mem_filterMap.mp hx
    simp only [Option.ite_none_left_eq_some, Option.some.injEq] at ha
    simp [← ha.2, ha.1]

/-- The launch memory lies below its size. -/
theorem memoryOf_inBounds (size : Nat) (contents : Nat → Byte) :
    (memoryOf size contents).inBounds size := by
  intro x hx
  obtain ⟨a, ha, hx⟩ := List.mem_filterMap.mp hx
  simp only [Option.ite_none_left_eq_some, Option.some.injEq] at hx
  simpa [← hx.2] using ha

/-- An address that no entry lists reads as the fill byte. -/
theorem readByte_unlisted {m : Memory} {a : Nat} (h : ∀ x ∈ m, x.1 ≠ a) :
    readByte m a = Config.fillByte := by
  induction m with
  | nil => rfl
  | cons y rest ih =>
    simp only [readByte]
    rw [if_neg (h y (by simp)), ih fun x hx => h x (by simp [hx])]

/-- A listed byte reads as listed in a canonical memory. -/
theorem readByte_listed {m : Memory} (h : m.wf) {x : Host.Cell} (hx : x ∈ m) :
    readByte m x.1 = x.2 := by
  induction m with
  | nil => simp at hx
  | cons y rest ih =>
    obtain ⟨hs, hf⟩ := h
    rw [List.pairwise_cons] at hs
    simp only [readByte]
    rcases List.mem_cons.mp hx with rfl | hx
    · simp
    · rw [if_neg (by have := hs.1 x hx; omega)]
      exact ih ⟨hs.2, fun z hz => hf z (by simp [hz])⟩ hx

@[simp] theorem memRead_zero (m : Memory) (a : Nat) : memRead m a 0 = 0 := rfl

theorem memRead_succ (m : Memory) (a n : Nat) :
    memRead m a (n + 1) = (readByte m a).toNat + 256 * memRead m (a + 1) n := rfl

@[simp] theorem memWrite_zero (m : Memory) (a : Nat) (v : Nat) : memWrite m a 0 v = m := rfl

theorem memWrite_succ (m : Memory) (a n : Nat) (v : Nat) :
    memWrite m a (n + 1) v = memWrite (writeByte m a (BitVec.ofNat 8 v)) (a + 1) n (v / 256) := rfl

/-- `n` bytes make a value below `2^(8n)`. -/
theorem memRead_lt (m : Memory) (a n : Nat) : memRead m a n < 2 ^ (8 * n) := by
  induction n generalizing a with
  | zero => simp
  | succ n ih =>
    have h1 := (readByte m a).isLt
    have h2 := ih (a + 1)
    have h3 : 2 ^ (8 * (n + 1)) = 256 * 2 ^ (8 * n) := by ring
    rw [memRead_succ, h3]
    omega

end Sys2Proof.Machine
end

