-- ==== Sys2Proof/Laws/State.lean ====
section
/-! SUPPORT. One lemma per field per update of the state. -/

namespace Sys2Proof.Machine

@[simp] theorem writeReg_cfg (d v : Nat) (s : State) : (writeReg d v s).cfg = s.cfg := rfl
@[simp] theorem writeReg_mem (d v : Nat) (s : State) : (writeReg d v s).mem = s.mem := rfl
@[simp] theorem writeReg_phase (d v : Nat) (s : State) : (writeReg d v s).phase = s.phase := rfl
@[simp] theorem writeReg_latch (d v : Nat) (s : State) : (writeReg d v s).latch = s.latch := rfl
@[simp] theorem writeReg_calls (d v : Nat) (s : State) : (writeReg d v s).calls = s.calls := rfl
@[simp] theorem writeReg_returned (d v : Nat) (s : State) :
    (writeReg d v s).returned = s.returned := rfl
@[simp] theorem writeReg_regs (d v : Nat) (s : State) :
    (writeReg d v s).regs = s.regs.set d (Word.trunc s.cfg.registerBits v) := rfl

@[simp] theorem storeBytes_cfg (a n v : Nat) (s : State) : (storeBytes a n v s).cfg = s.cfg := rfl
@[simp] theorem storeBytes_regs (a n v : Nat) (s : State) :
    (storeBytes a n v s).regs = s.regs := rfl
@[simp] theorem storeBytes_mem (a n v : Nat) (s : State) :
    (storeBytes a n v s).mem = memWrite s.mem a n v := rfl
@[simp] theorem storeBytes_phase (a n v : Nat) (s : State) :
    (storeBytes a n v s).phase = s.phase := rfl
@[simp] theorem storeBytes_latch (a n v : Nat) (s : State) :
    (storeBytes a n v s).latch = s.latch := rfl
@[simp] theorem storeBytes_calls (a n v : Nat) (s : State) :
    (storeBytes a n v s).calls = s.calls := rfl
@[simp] theorem storeBytes_returned (a n v : Nat) (s : State) :
    (storeBytes a n v s).returned = s.returned := rfl

@[simp] theorem endExecute_cfg (st : Status) (s : State) : (endExecute st s).cfg = s.cfg := rfl
@[simp] theorem endExecute_regs (st : Status) (s : State) : (endExecute st s).regs = s.regs := rfl
@[simp] theorem endExecute_mem (st : Status) (s : State) : (endExecute st s).mem = s.mem := rfl
@[simp] theorem endExecute_phase (st : Status) (s : State) :
    (endExecute st s).phase = if st.isHardError then .idle else .executed := rfl
@[simp] theorem endExecute_latch (st : Status) (s : State) : (endExecute st s).latch = none := rfl
@[simp] theorem endExecute_calls (st : Status) (s : State) :
    (endExecute st s).calls = s.calls := rfl
@[simp] theorem endExecute_returned (st : Status) (s : State) :
    (endExecute st s).returned = some st := rfl

@[simp] theorem executeUnknown_cfg (s : State) : (executeUnknown s).cfg = s.cfg := rfl
@[simp] theorem executeUnknown_regs (s : State) : (executeUnknown s).regs = s.regs := rfl
@[simp] theorem executeUnknown_mem (s : State) : (executeUnknown s).mem = s.mem := rfl
@[simp] theorem executeUnknown_phase (s : State) : (executeUnknown s).phase = s.phase := rfl
@[simp] theorem executeUnknown_latch (s : State) : (executeUnknown s).latch = s.latch := rfl
@[simp] theorem executeUnknown_calls (s : State) : (executeUnknown s).calls = s.calls := rfl
@[simp] theorem executeUnknown_returned (s : State) :
    (executeUnknown s).returned = some .execUnknown := rfl

@[simp] theorem issueCycle_cfg (w : Nat) (s : State) : (issueCycle w s).cfg = s.cfg := rfl
@[simp] theorem issueCycle_regs (w : Nat) (s : State) : (issueCycle w s).regs = s.regs := rfl
@[simp] theorem issueCycle_mem (w : Nat) (s : State) : (issueCycle w s).mem = s.mem := rfl
@[simp] theorem issueCycle_phase (w : Nat) (s : State) : (issueCycle w s).phase = s.phase := rfl
@[simp] theorem issueCycle_latch (w : Nat) (s : State) : (issueCycle w s).latch = s.latch := rfl
@[simp] theorem issueCycle_calls (w : Nat) (s : State) :
    (issueCycle w s).calls = .cycle (Word.trunc s.cfg.registerBits w) :: s.calls := rfl
@[simp] theorem issueCycle_returned (w : Nat) (s : State) :
    (issueCycle w s).returned = s.returned := rfl

/-- The other fields do not matter to a register read. -/
@[simp] theorem readReg_endExecute (st : Status) (s : State) (i : Nat) :
    readReg (endExecute st s) i = readReg s i := rfl

@[simp] theorem readReg_storeBytes (a n v : Nat) (s : State) (i : Nat) :
    readReg (storeBytes a n v s) i = readReg s i := rfl

@[simp] theorem readReg_executeUnknown (s : State) (i : Nat) :
    readReg (executeUnknown s) i = readReg s i := rfl

end Sys2Proof.Machine
end

