-- ==== Sys2Proof/Laws/Ops.lean ====
section
/-! SUPPORT. For each shared operation, what it can do, said once. -/

namespace Sys2Proof.Machine

/-- A register read after a register write: the written register reads the reduced value, every other
register, and an index that names no register, as before. -/
theorem readReg_writeReg (d v : Nat) (s : State) (i : Nat) :
    readReg (writeReg d v s) i =
      if i = d ∧ d < s.regs.length then Word.trunc s.cfg.registerBits v else readReg s i := by
  unfold readReg
  rw [writeReg_regs, List.getD_eq_getElem?_getD, List.getD_eq_getElem?_getD, List.getElem?_set]
  by_cases h : i = d
  · subst h
    by_cases hl : i < s.regs.length <;> simp [hl]
  · simp [h, Ne.symm h]

/-- The written register. -/
theorem readReg_writeReg_self {d : Nat} {s : State} (h : d < s.regs.length) (v : Nat) :
    readReg (writeReg d v s) d = v % 2 ^ s.cfg.registerBits := by
  rw [readReg_writeReg, if_pos ⟨rfl, h⟩, Word.trunc]

/-- Every other register. -/
theorem readReg_writeReg_ne {d i : Nat} (h : i ≠ d) (v : Nat) (s : State) :
    readReg (writeReg d v s) i = readReg s i := by
  rw [readReg_writeReg, if_neg (by tauto)]

/-- A register of a well-formed state holds an `R`-bit word. -/
theorem readReg_lt {s : State} (h : s.Wf) (i : Nat) : readReg s i < 2 ^ s.cfg.registerBits := by
  unfold readReg
  by_cases hi : i < s.regs.length
  · rw [List.getD_eq_getElem?_getD, List.getElem?_eq_getElem hi]
    exact h.1.2 _ (List.getElem_mem hi)
  · rw [List.getD_eq_getElem?_getD, List.getElem?_eq_none (by omega)]
    exact Nat.two_pow_pos _

/-- The effective address lies in memory: the out-of-memory outcome cannot occur
(20_memory.md R47). -/
theorem effectiveAddress_lt (s : State) (base off : Nat) :
    effectiveAddress s base off < s.cfg.memorySize :=
  Nat.mod_lt _ (Nat.two_pow_pos _)

/-- The operand fetch: the meaning goes on with the value the operand denotes, or faults. -/
theorem withOperand_cases (o : Operand) (s : State)
    (go : Nat → Host.Outcome State Fault Refusal) :
    (∃ v, OperandDenotes s o v ∧ withOperand o s go = go v) ∨
      (∃ k, o = .reg k ∧ s.cfg.registerCount ≤ k ∧
        withOperand o s go = .fault .badRegisterIndex) := by
  cases o with
  | imm w => exact .inl ⟨w, rfl, rfl⟩
  | reg k =>
    by_cases h : s.cfg.registerCount ≤ k
    · exact .inr ⟨k, rfl, h, by simp [withOperand, operandValue, h]⟩
    · exact .inl ⟨readReg s k, ⟨by omega, rfl⟩, by simp [withOperand, operandValue, h]⟩

/-- The operand fetch of an operand that denotes `v`. -/
theorem withOperand_denotes {s : State} {o : Operand} {v : Nat} (h : OperandDenotes s o v)
    (go : Nat → Host.Outcome State Fault Refusal) : withOperand o s go = go v := by
  cases o with
  | imm w => simp only [OperandDenotes] at h; subst h; rfl
  | reg k =>
    obtain ⟨hk, rfl⟩ := h
    simp [withOperand, operandValue, Nat.not_le.mpr hk]

/-- What `accessSize` can answer (20_memory.md R47 to R50). -/
theorem accessSize_cases (c : Config) (ea : Nat) :
    (c.memorySize ≤ ea ∧ accessSize c ea = .error .outOfMemory) ∨
    (ea < c.memorySize ∧ c.memorySize - c.registerBytes < ea ∧
      accessSize c ea = .ok (c.memorySize - ea, .lastMemoryByte)) ∨
    (ea < c.memorySize ∧ ea ≤ c.memorySize - c.registerBytes ∧
      accessSize c ea = .ok (c.registerBytes, .ok)) := by
  unfold accessSize
  by_cases h1 : c.memorySize ≤ ea
  · exact .inl ⟨h1, by simp [h1]⟩
  · by_cases h2 : c.memorySize - c.registerBytes < ea
    · exact .inr (.inl ⟨by omega, h2, by simp [h1, h2]⟩)
    · exact .inr (.inr ⟨by omega, by omega, by simp [h1, h2]⟩)

/-- The register width in bytes fits in memory. -/
theorem registerBytes_le_memorySize (c : Config) : c.registerBytes ≤ c.memorySize := by
  have h : c.registerBits < 2 ^ c.registerBits := Nat.lt_two_pow_self
  simp only [Params.registerBytes, Params.memorySize]
  omega

/-- Everything a meaning can do when it gives a next state: a shift-range error with nothing written,
one register written, or bytes stored; then the transaction ends. -/
theorem exec_next {i : Instr} {s t : State} (h : exec i s = .next t) :
    (∃ ds o, (i = .shr ds o ∨ i = .shl ds o) ∧ t = endExecute .shiftRange s) ∨
    (∃ d v st, destination i = some d ∧ (st = .ok ∨ st = .lastMemoryByte) ∧
      t = endExecute st (writeReg d v s)) ∨
    (∃ addr src off n st, i = .store addr src off ∧
      effectiveAddress s addr off + n ≤ s.cfg.memorySize ∧
      (st = .ok ∨ st = .lastMemoryByte) ∧
      t = endExecute st (storeBytes (effectiveAddress s addr off) n (readReg s src) s)) := by
  have arith : ∀ {ds : Nat} {o : Operand} {f : Nat → Nat}, destination i = some ds →
      withOperand o s (fun v => returnStatus .ok (writeReg ds (f v) s)) = .next t →
      ∃ d v st, destination i = some d ∧ (st = .ok ∨ st = .lastMemoryByte) ∧
        t = endExecute st (writeReg d v s) := by
    intro ds o f hd h
    rcases withOperand_cases o s (fun v => returnStatus .ok (writeReg ds (f v) s)) with
      ⟨v, -, hv⟩ | ⟨k, -, -, hk⟩
    · rw [hv] at h
      exact ⟨ds, f v, .ok, hd, .inl rfl, by simpa [returnStatus] using h.symm⟩
    · rw [hk] at h; cases h
  have shift : ∀ {ds : Nat} {o : Operand} {f : Nat → Nat}, destination i = some ds →
      withOperand o s (fun v => if s.cfg.registerBits < v then raiseStatus .shiftRange s
        else returnStatus .ok (writeReg ds (f v) s)) = .next t →
      t = endExecute .shiftRange s ∨ ∃ d v st, destination i = some d ∧
        (st = .ok ∨ st = .lastMemoryByte) ∧ t = endExecute st (writeReg d v s) := by
    intro ds o f hd h
    rcases withOperand_cases o s (fun v => if s.cfg.registerBits < v then raiseStatus .shiftRange s
        else returnStatus .ok (writeReg ds (f v) s)) with ⟨v, -, hv⟩ | ⟨k, -, -, hk⟩
    · rw [hv] at h
      split at h
      · exact .inl (by simpa [raiseStatus] using h.symm)
      · exact .inr ⟨ds, f v, .ok, hd, .inl rfl, by simpa [returnStatus] using h.symm⟩
    · rw [hk] at h; cases h
  have plain : ∀ {d v : Nat}, destination i = some d →
      returnStatus .ok (writeReg d v s) = .next t →
      ∃ d v st, destination i = some d ∧ (st = .ok ∨ st = .lastMemoryByte) ∧
        t = endExecute st (writeReg d v s) := fun {d v} hd h =>
    ⟨d, v, .ok, hd, .inl rfl, by simpa [returnStatus] using h.symm⟩
  cases i with
  | load dst base off =>
    simp only [exec, execLoad] at h
    rcases accessSize_cases s.cfg (effectiveAddress s base off) with
      ⟨hm, -⟩ | ⟨-, -, ha⟩ | ⟨-, -, ha⟩
    · exact absurd hm (Nat.not_le.mpr (effectiveAddress_lt _ _ _))
    · rw [ha] at h
      exact .inr (.inl ⟨dst, _, .lastMemoryByte, rfl, .inr rfl,
        by simpa [returnStatus] using h.symm⟩)
    · rw [ha] at h
      exact .inr (.inl ⟨dst, _, .ok, rfl, .inl rfl, by simpa [returnStatus] using h.symm⟩)
  | store addr src off =>
    simp only [exec, execStore] at h
    rcases accessSize_cases s.cfg (effectiveAddress s addr off) with
      ⟨hm, -⟩ | ⟨h1, -, ha⟩ | ⟨-, h2, ha⟩
    · exact absurd hm (Nat.not_le.mpr (effectiveAddress_lt _ _ _))
    · rw [ha] at h
      exact .inr (.inr ⟨addr, src, off, s.cfg.memorySize - effectiveAddress s addr off, .lastMemoryByte, rfl,
        by omega, .inr rfl,
        by simpa [returnStatus] using h.symm⟩)
    · rw [ha] at h
      exact .inr (.inr ⟨addr, src, off, s.cfg.registerBytes, .ok, rfl,
        by have := registerBytes_le_memorySize s.cfg; omega, .inl rfl,
        by simpa [returnStatus] using h.symm⟩)
  | loadImmediate dst isUpper data =>
    simp only [exec, execLoadImmediate] at h
    split at h
    · exact .inr (.inl (plain rfl h))
    · exact .inr (.inl (plain rfl h))
  | add ds o => exact .inr (.inl (arith rfl h))
  | sub ds o => exact .inr (.inl (arith rfl h))
  | mul ds o => exact .inr (.inl (arith rfl h))
  | shr ds o =>
    rcases shift rfl h with h | h
    · exact .inl ⟨ds, o, .inl rfl, h⟩
    · exact .inr (.inl h)
  | shl ds o =>
    rcases shift rfl h with h | h
    · exact .inl ⟨ds, o, .inr rfl, h⟩
    · exact .inr (.inl h)
  | and dst src => exact .inr (.inl (plain rfl h))
  | or dst src => exact .inr (.inl (plain rfl h))
  | xor dst src => exact .inr (.inl (plain rfl h))
  | not ds => exact .inr (.inl (plain rfl h))

/-- What the decode transaction does (45_dispatcher.md R106, R107). -/
theorem decodeTransaction_cases (w : Nat) (s : State) :
    (∃ i, decode s.cfg w = .ok i ∧ decodeTransaction w s =
      { s with phase := .decoded, latch := some i, returned := some .ok }) ∨
    (∃ e, decode s.cfg w = .error e ∧ decodeTransaction w s =
      { s with phase := .idle, latch := none, returned := some .decodeUnknown }) := by
  unfold decodeTransaction
  cases h : decode s.cfg w with
  | ok i => exact .inl ⟨i, rfl, rfl⟩
  | error e => exact .inr ⟨e, rfl, rfl⟩

/-- What the execute transaction does (45_dispatcher.md R109, R111). -/
theorem executeTransaction_cases (s : State) :
    (∃ i, s.phase = .decoded ∧ s.latch = some i ∧ executeTransaction s = exec i s) ∨
    ((s.phase ≠ .decoded ∨ s.latch = none) ∧
      executeTransaction s = .next (executeUnknown s)) := by
  unfold executeTransaction
  cases hp : s.phase <;> cases hl : s.latch <;> simp

/-- What a cycle does (45_dispatcher.md R114). -/
theorem cycleTransaction_cases (w : Nat) (s : State) :
    (∃ i, decode s.cfg w = .ok i ∧ cycleTransaction w s =
      exec i { s with phase := .decoded, latch := some i, returned := some .ok }) ∨
    (∃ e, decode s.cfg w = .error e ∧ cycleTransaction w s = .next
      { s with phase := .idle, latch := none, returned := some .decodeUnknown }) := by
  rcases decodeTransaction_cases w s with ⟨i, hd, ht⟩ | ⟨e, hd, ht⟩
  · exact .inl ⟨i, hd, by rw [cycleTransaction, ht]; rfl⟩
  · exact .inr ⟨e, hd, by rw [cycleTransaction, ht]; rfl⟩

@[simp] theorem runSteps_zero (s : State) : runSteps 0 s = .next s := rfl

/-- The first step of a run. -/
theorem runSteps_succ (n : Nat) (s : State) : runSteps (n + 1) s =
    match step s with
    | .next t => runSteps n t
    | .fault f => .fault f
    | .refused r => .refused r := rfl

/-- A run that gives a state after `n + 1` steps takes a first step. -/
theorem runSteps_next {n : Nat} {s t : State} (h : runSteps (n + 1) s = .next t) :
    ∃ u, step s = .next u ∧ runSteps n u = .next t := by
  rw [runSteps_succ] at h
  split at h
  · rename_i u hu
    exact ⟨u, hu, h⟩
  · cases h
  · cases h

end Sys2Proof.Machine
end

