-- ==== Sys2Proof/Laws/PerInstr.lean ====
section
/-! SUPPORT. Statements for all instructions, one lemma per constructor of `Instr`. -/

namespace Sys2Proof

/-- The word of a well-formed instruction is an `R`-bit word whose opcode field holds the
instruction's opcode index (30_encoding.md R63, R64). -/
def Laws.OpcodeField.Statement (i : Instr) : Prop :=
  ∀ c : Config, i.wellFormed c = true →
    encode c i < 2 ^ c.registerBits ∧ opcodeIndex c (encode c i) = opcodeOf i.mnemonic

/-- The encoder places the opcode for every instruction alike. -/
theorem encode_opcodeField (i : Instr) : Laws.OpcodeField.Statement i := by
  intro c h
  obtain ⟨hfit, hsum⟩ := operandFields_fit h
  have hop := opcodeOf_lt c i.mnemonic
  have hlow := concatFields_lt hfit
  rw [hsum] at hlow
  have henc : encode c i =
      opcodeOf i.mnemonic * 2 ^ c.bitsBelowOpcode + concatFields (operandFields c i) := by
    rw [encode, concatFields_cons, hsum]
  have hO : c.bitsForOpcode + c.bitsBelowOpcode = c.registerBits := by
    have := c.valid.2.2.2.1.1
    simp only [Params.bitsBelowOpcode]
    omega
  have hall : FieldsFit ((c.bitsForOpcode, opcodeOf i.mnemonic) :: operandFields c i) :=
    (FieldsFit_cons _ _).mpr ⟨hop, hfit⟩
  refine ⟨?_, ?_⟩
  · have := concatFields_lt hall
    rwa [List.map_cons, List.sum_cons, hsum, hO] at this
  · rw [henc, opcodeIndex, field_high hlow, Nat.mod_eq_of_lt hop]

theorem Laws.OpcodeField.load (dst base off : Nat) :
    Laws.OpcodeField.Statement (.load dst base off) := encode_opcodeField _
theorem Laws.OpcodeField.store (addr src off : Nat) :
    Laws.OpcodeField.Statement (.store addr src off) := encode_opcodeField _
theorem Laws.OpcodeField.loadImmediate (dst : Nat) (isUpper : Bool) (data : Nat) :
    Laws.OpcodeField.Statement (.loadImmediate dst isUpper data) := encode_opcodeField _
theorem Laws.OpcodeField.add (ds : Nat) (opnd : Operand) :
    Laws.OpcodeField.Statement (.add ds opnd) := encode_opcodeField _
theorem Laws.OpcodeField.sub (ds : Nat) (opnd : Operand) :
    Laws.OpcodeField.Statement (.sub ds opnd) := encode_opcodeField _
theorem Laws.OpcodeField.mul (ds : Nat) (opnd : Operand) :
    Laws.OpcodeField.Statement (.mul ds opnd) := encode_opcodeField _
theorem Laws.OpcodeField.shr (ds : Nat) (opnd : Operand) :
    Laws.OpcodeField.Statement (.shr ds opnd) := encode_opcodeField _
theorem Laws.OpcodeField.shl (ds : Nat) (opnd : Operand) :
    Laws.OpcodeField.Statement (.shl ds opnd) := encode_opcodeField _
theorem Laws.OpcodeField.and (dst src : Nat) :
    Laws.OpcodeField.Statement (.and dst src) := encode_opcodeField _
theorem Laws.OpcodeField.or (dst src : Nat) :
    Laws.OpcodeField.Statement (.or dst src) := encode_opcodeField _
theorem Laws.OpcodeField.xor (dst src : Nat) :
    Laws.OpcodeField.Statement (.xor dst src) := encode_opcodeField _
theorem Laws.OpcodeField.not (ds : Nat) :
    Laws.OpcodeField.Statement (.not ds) := encode_opcodeField _

end Sys2Proof
end

