-- ==== Sys2Proof/Tests/Slice0.lean ====
section
/-! SUPPORT. Tests on fixed values. Expected results are those of spec/95_test_vectors.md (each test
names its vector) or read off the encoding tables of 30_encoding.md. The `witness_` theorems show that
the hypotheses of the statements can be met, at the boundary values of their clauses. -/

namespace Sys2Proof.Tests

open Sys2Proof Sys2Proof.Machine

/-! ## Helpers -/

/-- The reset state with `x[1]`, `x[2]`, `x[3]` and memory set, the other registers 0. -/
def small (x1 x2 x3 : Nat) (mem : Memory) : State :=
  { State.reset with regs := [0, x1, x2, x3, 0, 0, 0, 0], mem := mem }

/-- One step with the word placed returns `st`, and leaves the given registers and bytes. -/
def gives (w : Nat) (s : State) (st : Status) (regs : List (Nat × Nat))
    (bytes : List (Nat × Byte)) : Bool :=
  match step (s.withFetchWord 16 w) with
  | .next t => t.returned == some st && regs.all (fun r => readReg t r.1 == r.2) &&
      bytes.all fun b => readByte t.mem b.1 == b.2
  | .fault _ => false
  | .refused _ => false

/-- The outcome is a fault. -/
def faults (o : Host.Outcome State Fault Refusal) : Bool :=
  match o with
  | .fault .badRegisterIndex => true
  | .next _ => false
  | .refused _ => false

/-- A valid configuration in which `load_immediate` has unused bits: `O = 5`, `B = 2`, `Ul = 4`. -/
def wideConfig : Config :=
  { instructionSlots := 32, registerCount := 4, registerBits := 24, valid := by decide }

/-- A valid configuration with one register: `B = 0`, so the register fields have no bits. -/
def singleConfig : Config :=
  { instructionSlots := 16, registerCount := 1, registerBits := 16, valid := by decide }

/-! ## Configuration validity (10_state.md R22), one failing condition each -/

theorem test_slots_not_power : ¬ Params.Valid ⟨24, 8, 16⟩ := by decide
theorem test_registers_not_power : ¬ Params.Valid ⟨16, 6, 16⟩ := by decide
theorem test_width_not_bytes : ¬ Params.Valid ⟨16, 8, 20⟩ := by decide
theorem test_width_zero : ¬ Params.Valid ⟨16, 8, 0⟩ := by decide
theorem test_slots_too_few : ¬ Params.Valid ⟨8, 8, 16⟩ := by decide
theorem test_load_immediate_unfit : ¬ Params.Valid ⟨16, 16, 16⟩ := by decide
theorem test_load_unfit : ¬ Params.Valid ⟨16, 64, 16⟩ := by decide

/-! ## WellFormed: an ill-formed term for each check -/

theorem test_load_dst_refused : (Instr.load 8 0 0).wellFormed defaultConfig = false := by decide
theorem test_load_base_refused : (Instr.load 0 8 0).wellFormed defaultConfig = false := by decide
theorem test_load_offset_refused : (Instr.load 0 0 32).wellFormed defaultConfig = false := by decide
theorem test_load_offset_range_refused :
    (Instr.load 0 0 0x10000).wellFormed defaultConfig = false := by decide
theorem test_store_addr_refused : (Instr.store 8 0 0).wellFormed defaultConfig = false := by decide
theorem test_store_src_refused : (Instr.store 0 8 0).wellFormed defaultConfig = false := by decide
theorem test_store_offset_refused :
    (Instr.store 0 0 0xFFDF).wellFormed defaultConfig = false := by decide
theorem test_load_immediate_dst_refused :
    (Instr.loadImmediate 8 true 0).wellFormed defaultConfig = false := by decide
theorem test_load_immediate_data_refused :
    (Instr.loadImmediate 0 true 256).wellFormed defaultConfig = false := by decide
theorem test_arith_ds_refused :
    (Instr.add 8 (.imm 0)).wellFormed defaultConfig = false ∧
    (Instr.sub 8 (.imm 0)).wellFormed defaultConfig = false ∧
    (Instr.mul 8 (.imm 0)).wellFormed defaultConfig = false ∧
    (Instr.shr 8 (.imm 0)).wellFormed defaultConfig = false ∧
    (Instr.shl 8 (.imm 0)).wellFormed defaultConfig = false := by decide
theorem test_arith_immediate_refused :
    (Instr.add 0 (.imm 128)).wellFormed defaultConfig = false ∧
    (Instr.sub 0 (.imm 0xFF7F)).wellFormed defaultConfig = false ∧
    (Instr.mul 0 (.imm 128)).wellFormed defaultConfig = false ∧
    (Instr.shr 0 (.imm 0x10000)).wellFormed defaultConfig = false ∧
    (Instr.shl 0 (.imm 128)).wellFormed defaultConfig = false := by decide
theorem test_arith_register_refused :
    (Instr.add 0 (.reg 256)).wellFormed defaultConfig = false ∧
    (Instr.sub 0 (.reg 256)).wellFormed defaultConfig = false ∧
    (Instr.mul 0 (.reg 256)).wellFormed defaultConfig = false ∧
    (Instr.shr 0 (.reg 256)).wellFormed defaultConfig = false ∧
    (Instr.shl 0 (.reg 256)).wellFormed defaultConfig = false := by decide
theorem test_bitwise_dst_refused :
    (Instr.and 8 0).wellFormed defaultConfig = false ∧
    (Instr.or 8 0).wellFormed defaultConfig = false ∧
    (Instr.xor 8 0).wellFormed defaultConfig = false ∧
    (Instr.not 8).wellFormed defaultConfig = false := by decide
theorem test_bitwise_src_refused :
    (Instr.and 0 8).wellFormed defaultConfig = false ∧
    (Instr.or 0 8).wellFormed defaultConfig = false ∧
    (Instr.xor 0 8).wellFormed defaultConfig = false := by decide

/-! ## Decoding of words written out from 30_encoding.md R66 to R72, R81 -/

-- V-D1: 0000 010 001 111110
theorem test_decode_load : decodeTableWord 16 0b0000_010_001_111110 = some (.load 2 1 0xFFFE) := by
  decide
-- V-D4: the most negative offset
theorem test_decode_load_most_negative :
    decodeTableWord 16 0b0000_000_000_100000 = some (.load 0 0 0xFFE0) := by decide
-- V-D5: the address register stands first
theorem test_decode_store : decodeTableWord 16 0b0001_111_000_111111 = some (.store 7 0 0xFFFF) := by
  decide
-- V-D7: isUpper is bit 8
theorem test_decode_load_immediate :
    decodeTableWord 16 0b0010_000_1_00000000 = some (.loadImmediate 0 true 0) := by decide
-- V-D6: data is not sign-extended
theorem test_decode_load_immediate_ones :
    decodeTableWord 16 0b0010_111_1_11111111 = some (.loadImmediate 7 true 0xFF) := by decide
-- V-D8, V-D10
theorem test_decode_add :
    decodeTableWord 16 0b0011_1_000_10000000 = some (.add 0 (.imm 0xFF80)) ∧
    decodeTableWord 16 0b0011_0_111_00000111 = some (.add 7 (.reg 7)) := by decide
-- V-AR6, V-AR9
theorem test_decode_sub :
    decodeTableWord 16 0b0100_1_001_00001011 = some (.sub 1 (.imm 11)) ∧
    decodeTableWord 16 0b0100_0_001_00000010 = some (.sub 1 (.reg 2)) := by decide
-- V-AR10, V-AR12
theorem test_decode_mul :
    decodeTableWord 16 0b0101_1_001_01000001 = some (.mul 1 (.imm 65)) ∧
    decodeTableWord 16 0b0101_0_001_00000010 = some (.mul 1 (.reg 2)) := by decide
-- V-SH1, V-SH16
theorem test_decode_shr :
    decodeTableWord 16 0b0110_1_001_00001111 = some (.shr 1 (.imm 15)) ∧
    decodeTableWord 16 0b0110_0_001_11111111 = some (.shr 1 (.reg 255)) := by decide
-- V-SH10, V-SH15
theorem test_decode_shl :
    decodeTableWord 16 0b0111_1_001_00010000 = some (.shl 1 (.imm 16)) ∧
    decodeTableWord 16 0b0111_0_001_00000010 = some (.shl 1 (.reg 2)) := by decide
-- V-BW1, V-BW9: unused bits are ignored
theorem test_decode_and :
    decodeTableWord 16 0b1000_001_010_000000 = some (.and 1 2) ∧
    decodeTableWord 16 0b1000_001_010_111111 = some (.and 1 2) := by decide
-- V-BW10
theorem test_decode_or : decodeTableWord 16 0b1001_111_000_000000 = some (.or 7 0) := by decide
-- V-BW3
theorem test_decode_xor : decodeTableWord 16 0b1010_001_010_000000 = some (.xor 1 2) := by decide
-- V-BW4, V-BW8
theorem test_decode_not :
    decodeTableWord 16 0b1011_001_000000000 = some (.not 1) ∧
    decodeTableWord 16 0b1011_001_111111111 = some (.not 1) := by decide
-- 30_encoding.md R80
theorem test_decode_unregistered :
    decodeTableWord 16 0xC000 = none ∧ decodeTableWord 16 0xFFFF = none := by decide
-- The other way, from the same tables
theorem test_encode :
    encode defaultConfig (.load 2 1 0xFFFE) = 0x047E ∧
    encode defaultConfig (.store 1 2 0xFFFA) = 0x12BA ∧
    encode defaultConfig (.sub 1 (.imm 0xFF80)) = 0x4980 ∧
    encode defaultConfig (.not 1) = 0xB200 := by decide
-- R68 with `Ul = 4` unused low bits: 00010 11 1 000000000101 1111
theorem test_decode_wide_load_immediate :
    decode wideConfig 0b00010_11_1_000000000101_1111 = .ok (.loadImmediate 3 true 5) := by rfl
-- R69 with `B = 0`: 0011 1 11111111111
theorem test_decode_single_register :
    decode singleConfig 0b0011_1_11111111111 = .ok (.add 0 (.imm 0xFFFF)) := by rfl

/-! ## One step of each instruction -/

-- V-LS5: EA = 0 - 32 wraps
theorem test_load_wraps_below :
    gives 0x0460 (small 0 0 0 [(0xFFE0, 0x0F), (0xFFE1, 0xF0)]) .ok [(1, 0), (2, 0xF00F)]
      [(0xFFE0, 0x0F)] = true := by decide
-- V-LS7: partial, mem[0] not read
theorem test_load_partial :
    gives 0x0440 (small 0xFFFF 0x1111 0 [(0, 0x77), (0xFFFF, 0xAB)]) .lastMemoryByte
      [(1, 0xFFFF), (2, 0x00AB)] [(0, 0x77)] = true := by decide
-- V-LS11: odd address, the neighbours keep their bytes
theorem test_store_odd :
    gives 0x1280 (small 0x0301 0xBEEF 0 [(0x0300, 1), (0x0303, 2)]) .ok [(1, 0x0301), (2, 0xBEEF)]
      [(0x0300, 1), (0x0301, 0xEF), (0x0302, 0xBE), (0x0303, 2)] = true := by decide
-- V-LS13: EA = 5 - 6 wraps to 0xFFFF, partial
theorem test_store_partial :
    gives 0x12BA (small 5 0x1234 0 [(0, 0x55)]) .lastMemoryByte [(2, 0x1234)]
      [(0, 0x55), (0xFFFF, 0x34)] = true := by decide
-- V-LI1, V-LI2
theorem test_load_immediate_lower :
    gives 0x22AA (small 0x1234 0 0 []) .ok [(1, 0x12AA)] [] = true := by decide
theorem test_load_immediate_upper :
    gives 0x23FF (small 0x1234 0 0 []) .ok [(1, 0xFF34)] [] = true := by decide
-- E1, V-AR4
theorem test_add_wraps :
    gives 0x3102 (small 32769 32768 0 []) .ok [(1, 1), (2, 32768)] [] = true := by decide
theorem test_add_negative :
    gives 0x3980 (small 0 0 0 []) .ok [(1, 0xFF80)] [] = true := by decide
-- E3, V-AR9
theorem test_sub_underflow :
    gives 0x490B (small 10 0 0 []) .ok [(1, 65535)] [] = true := by decide
theorem test_sub_register :
    gives 0x4102 (small 5 7 0 []) .ok [(1, 0xFFFE), (2, 7)] [] = true := by decide
-- E2, V-AR11
theorem test_mul_wraps :
    gives 0x5941 (small 1024 0 0 []) .ok [(1, 1024)] [] = true := by decide
theorem test_mul_negative :
    gives 0x59FF (small 5 0 0 []) .ok [(1, 0xFFFB)] [] = true := by decide
-- V-SH9, V-SH7
theorem test_shr_logical :
    gives 0x6901 (small 0x8000 0 0 []) .ok [(1, 0x4000)] [] = true := by decide
theorem test_shr_range :
    gives 0x6102 (small 0xABCD 17 0 []) .shiftRange [(1, 0xABCD), (2, 17)] [] = true := by decide
-- V-SH10, V-SH13
theorem test_shl_by_width :
    gives 0x7910 (small 1 0 0 []) .ok [(1, 0)] [] = true := by decide
theorem test_shl_same_register :
    gives 0x7101 (small 3 0 0 []) .ok [(1, 0x18)] [] = true := by decide
-- E11 to E14
theorem test_and : gives 0x8280 (small 164 21 0 []) .ok [(1, 4), (2, 21)] [] = true := by decide
theorem test_or : gives 0x9280 (small 164 21 0 []) .ok [(1, 181), (2, 21)] [] = true := by decide
theorem test_xor : gives 0xA280 (small 164 21 0 []) .ok [(1, 177), (2, 21)] [] = true := by decide
theorem test_not : gives 0xB200 (small 0x5555 7 0 []) .ok [(1, 0xAAAA), (2, 7)] [] = true := by
  decide
-- V-AR15
theorem test_bad_register_faults :
    faults (step ((small 1 0 0 []).withFetchWord 16 0x3108)) = true := by decide
-- V-P4: the decode is rejected, registers and memory stay
theorem test_unregistered_word :
    gives 0xC000 (small 5 0 0 [(7, 1)]) .decodeUnknown [(1, 5)] [(7, 1)] = true := by decide
-- V-P1
theorem test_execute_after_construction :
    (executeUnknown State.reset).phase = .idle ∧
    step { State.reset with calls := [.execute] } = .next (executeUnknown State.reset) :=
  ⟨rfl, rfl⟩

/-! ## Memory -/

theorem test_write_keeps_order :
    writeByte (writeByte [(5, 1)] 9 2) 7 3 = [(5, 1), (7, 3), (9, 2)] := by decide
theorem test_write_fill_removes : writeByte [(5, 1), (7, 3)] 5 Config.fillByte = [(7, 3)] := by decide

/-! ## Witnesses: configuration and construction -/

theorem witness_OpcodeMaskSelectsOpcodeField :
    0xFFFF < 2 ^ defaultConfig.registerBits ∧ 0xFFFFFF < 2 ^ wideConfig.registerBits := by decide

theorem witness_ConstructionSucceedsExactlyWhenValid :
    (∃ o b : Nat, (16 : Nat) = 2 ^ o ∧ (8 : Nat) = 2 ^ b ∧ 0 < 16 ∧ 8 ∣ 16 ∧ 16 ≤ 16 ∧
      (1 : Int) ≤ (16 : Nat) - o - 2 * b ∧ max 1 (b : Int) ≤ (16 : Nat) - o - 1 - b ∧
      (0 : Int) ≤ (16 : Nat) - o - b - 1 - (16 : Nat) / 2) ∧
    ¬ (∃ o b : Nat, (16 : Nat) = 2 ^ o ∧ (8 : Nat) = 2 ^ b ∧ 0 < 20 ∧ 8 ∣ 20 ∧ 16 ≤ 16 ∧
      (1 : Int) ≤ (20 : Nat) - o - 2 * b ∧ max 1 (b : Int) ≤ (20 : Nat) - o - 1 - b ∧
      (0 : Int) ≤ (20 : Nat) - o - b - 1 - (20 : Nat) / 2) :=
  ⟨⟨4, 3, by decide⟩, fun ⟨_, _, _, _, _, h, _⟩ => absurd h (by decide)⟩

theorem witness_ConstructionLeavesLaunchState :
    ∃ s, construct defaultParams (fun i => i) (fun _ => 0x5A) = .ok s ∧ 7 < 8 ∧ 65535 < 2 ^ 16 :=
  ⟨launchState defaultConfig (fun i => i) (fun _ => 0x5A), dif_pos (by decide), by decide, by decide⟩

/-! ## Witnesses: encoding and decoding -/

theorem witness_DecodeOfEncodeIsIdentity :
    (Instr.load 7 7 0xFFE0).wellFormed defaultConfig = true ∧
    (Instr.store 7 0 31).wellFormed defaultConfig = true ∧
    (Instr.loadImmediate 3 false 0xFFF).wellFormed wideConfig = true ∧
    (Instr.shl 7 (.imm 0xFF80)).wellFormed defaultConfig = true ∧
    (Instr.mul 0 (.reg 255)).wellFormed defaultConfig = true ∧
    (Instr.xor 7 7).wellFormed defaultConfig = true := by decide

theorem witness_EncodeOfDecodeClearsUnusedBits :
    0xBFFF < 2 ^ defaultConfig.registerBits ∧ decode defaultConfig 0xBFFF = .ok (.not 7) :=
  ⟨by decide, rfl⟩

theorem witness_DecodedInstructionIsWellFormed :
    decode defaultConfig 0x3708 = .ok (.add 7 (.reg 8)) := rfl

theorem witness_UnregisteredOpcodeIsRejected :
    12 ≤ opcodeIndex State.reset.cfg 0xC000 ∧ opcodeIndex State.reset.cfg 0xC000 ≤ 12 := by decide

theorem witness_UnusedBitsAreIgnored :
    registrationOrder[opcodeIndex defaultConfig 0xB200]? = some .not ∧
    0xB200 / 2 ^ unusedBits defaultConfig .not = 0xB3FF / 2 ^ unusedBits defaultConfig .not := by
  decide

theorem witness_SignExtensionIsTwosComplement :
    (1 ≤ 8 ∧ 8 ≤ 16 ∧ 0x80 < 2 ^ 8 ∧ (0x80 : Nat).testBit (8 - 1) = true) ∧
    (1 ≤ 1 ∧ 1 ≤ 16 ∧ 1 < 2 ^ 1 ∧ (1 : Nat).testBit (1 - 1) = true) ∧
    (1 ≤ 16 ∧ 16 ≤ 16 ∧ 0x7FFF < 2 ^ 16 ∧ (0x7FFF : Nat).testBit (16 - 1) = false) := by decide

theorem witness_SignExtensionOfDecodedOffset :
    decode defaultConfig 0x0020 = .ok (.load 0 0 0xFFE0) ∧
    decode defaultConfig 0x101F = .ok (.store 0 0 31) := ⟨rfl, rfl⟩

theorem witness_SignExtensionOfDecodedImmediate :
    decode defaultConfig 0x3880 = .ok (.add 0 (.imm 0xFF80)) ∧
    decode defaultConfig 0x487F = .ok (.sub 0 (.imm 127)) ∧
    decode defaultConfig 0x58FF = .ok (.mul 0 (.imm 0xFFFF)) ∧
    decode defaultConfig 0x6880 = .ok (.shr 0 (.imm 0xFF80)) ∧
    decode defaultConfig 0x7811 = .ok (.shl 0 (.imm 17)) := ⟨rfl, rfl, rfl, rfl, rfl⟩

theorem witness_FieldIsMaskedShift : 0 < 1 := by decide

theorem witness_DefaultFieldPositions :
    (∀ k < 12, k * 4096 + 4095 < 65536 ∧ slice (k * 4096 + 4095) 15 12 = k) ∧
    12 ≤ slice 0xC000 15 12 ∧ 12 ≤ slice 0xFFFF 15 12 := by decide

/-! ## Witnesses: memory -/

/-- A canonical memory with its first and last byte listed. -/
def edges : Memory := [(0, 0x77), (0xFFFE, 0xCD), (0xFFFF, 0xAB)]

theorem witness_ByteReadAfterWrite : edges.wf := by decide

theorem witness_StoredBytesAreLittleEndian :
    edges.wf ∧ 1 < 2 ∧ (0 < 1 ∨ 1 + 2 ≤ 0) ∧ (3 < 1 ∨ 1 + 2 ≤ 3) := by decide

theorem witness_EqualContentsEqualMemory :
    let m := writeByte (writeByte [] 1 5) 2 6
    let m' := writeByte (writeByte [] 2 6) 1 5
    m.wf ∧ m'.wf ∧ ∀ a, readByte m a = readByte m' a :=
  ⟨by decide, by decide, fun _ => rfl⟩

theorem witness_OverlappingReadSeesWrittenBytes :
    edges.wf ∧ 0 < 2 ∧ 1 < 2 ∧ 1 + 0 < 2 ∧ ¬ 1 + 1 < 2 := by decide

/-! ## Witnesses: load and store -/

/-- `x[1] = 0xFFFE`, `x[2] = 0xFFFF`, `x[3] = 0xABCD`, the edges of memory listed. -/
def atEdge : State := small 0xFFFE 0xFFFF 0xABCD edges

theorem witness_EffectiveAddressWraps :
    decode defaultConfig 0x0460 = .ok (.load 2 1 0xFFE0) ∧
    decode defaultConfig 0x12BA = .ok (.store 1 2 0xFFFA) := ⟨rfl, rfl⟩

theorem witness_LoadFullAccess :
    atEdge.Wf ∧ (Instr.load 3 1 0).wellFormed atEdge.cfg = true ∧
    (readReg atEdge 1 + 0) % 2 ^ atEdge.cfg.registerBits = 0xFFFE ∧
    0xFFFE ≤ atEdge.cfg.memorySize - atEdge.cfg.registerBytes := by decide

theorem witness_LoadPartialAccess :
    atEdge.Wf ∧ (Instr.load 2 2 0).wellFormed atEdge.cfg = true ∧
    (readReg atEdge 2 + 0) % 2 ^ atEdge.cfg.registerBits = 0xFFFF ∧
    atEdge.cfg.memorySize - atEdge.cfg.registerBytes < 0xFFFF := by decide

theorem witness_StoreFullAccess :
    atEdge.Wf ∧ (Instr.store 2 3 1).wellFormed atEdge.cfg = true ∧
    (readReg atEdge 2 + 1) % 2 ^ atEdge.cfg.registerBits = 0 ∧
    (Instr.store 1 3 0).wellFormed atEdge.cfg = true ∧
    (readReg atEdge 1 + 0) % 2 ^ atEdge.cfg.registerBits = 0xFFFE ∧
    0xFFFE ≤ atEdge.cfg.memorySize - atEdge.cfg.registerBytes := by decide

theorem witness_StorePartialAccess :
    atEdge.Wf ∧ (Instr.store 2 3 0).wellFormed atEdge.cfg = true ∧
    (readReg atEdge 2 + 0) % 2 ^ atEdge.cfg.registerBits = 0xFFFF ∧
    atEdge.cfg.memorySize - atEdge.cfg.registerBytes < 0xFFFF := by decide

theorem witness_OutOfMemoryNeverOccurs : ∃ t, exec (.load 3 2 0) atEdge = .next t := ⟨_, rfl⟩

-- The overlapping load is a partial one: EA = 0xFFFE, then 0xFFFF.
theorem witness_OverlappingLoadSeesStoredBytes :
    atEdge.Wf ∧ (Instr.store 1 3 0).wellFormed atEdge.cfg = true ∧
    (Instr.load 4 2 0).wellFormed atEdge.cfg = true ∧
    effectiveAddress atEdge 1 0 ≤ atEdge.cfg.memorySize - atEdge.cfg.registerBytes ∧
    0 < 1 ∧ 1 < atEdge.cfg.registerBytes ∧
    atEdge.cfg.memorySize - atEdge.cfg.registerBytes < effectiveAddress atEdge 1 0 + 1 ∧
    ∃ t, exec (.store 1 3 0) atEdge = .next t ∧
      effectiveAddress t 2 0 = effectiveAddress atEdge 1 0 + 1 :=
  ⟨by decide, by decide, by decide, by decide, by decide, by decide, by decide, _, rfl, rfl⟩

-- The overlapping load is a full one: EA = 0xFFFD, then 0xFFFE.
theorem witness_OverlappingLoadFull :
    atEdge.Wf ∧ (Instr.store 1 3 0xFFFF).wellFormed atEdge.cfg = true ∧
    (Instr.load 4 1 0).wellFormed atEdge.cfg = true ∧
    0 < 1 ∧ 1 < atEdge.cfg.registerBytes ∧
    effectiveAddress atEdge 1 0xFFFF + 1 ≤ atEdge.cfg.memorySize - atEdge.cfg.registerBytes ∧
    ∃ t, exec (.store 1 3 0xFFFF) atEdge = .next t ∧
      effectiveAddress t 1 0 = effectiveAddress atEdge 1 0xFFFF + 1 :=
  ⟨by decide, by decide, by decide, by decide, by decide, by decide, _, rfl, rfl⟩

theorem witness_StoreThenLoadReturnsRegister :
    atEdge.Wf ∧ (Instr.store 1 3 0).wellFormed atEdge.cfg = true ∧
    (Instr.load 2 1 0).wellFormed atEdge.cfg = true ∧
    effectiveAddress atEdge 1 0 ≤ atEdge.cfg.memorySize - atEdge.cfg.registerBytes ∧
    ∃ t, exec (.store 1 3 0) atEdge = .next t ∧
      effectiveAddress t 1 0 = effectiveAddress atEdge 1 0 :=
  ⟨by decide, by decide, by decide, by decide, _, rfl, rfl⟩

theorem witness_StoreThenLoadPartial :
    atEdge.Wf ∧ (Instr.store 2 3 0).wellFormed atEdge.cfg = true ∧
    (Instr.load 4 2 0).wellFormed atEdge.cfg = true ∧
    atEdge.cfg.memorySize - atEdge.cfg.registerBytes < effectiveAddress atEdge 2 0 ∧
    ∃ t, exec (.store 2 3 0) atEdge = .next t ∧
      effectiveAddress t 2 0 = effectiveAddress atEdge 2 0 :=
  ⟨by decide, by decide, by decide, by decide, _, rfl, rfl⟩

theorem witness_LoadThenStoreKeepsMemory :
    atEdge.Wf ∧ (Instr.load 3 2 0).wellFormed atEdge.cfg = true ∧
    (Instr.store 2 3 0).wellFormed atEdge.cfg = true ∧
    ∃ t, exec (.load 3 2 0) atEdge = .next t ∧
      effectiveAddress t 2 0 = effectiveAddress atEdge 2 0 :=
  ⟨by decide, by decide, by decide, _, rfl, rfl⟩

/-! ## Witnesses: load_immediate, arithmetic, shift, bitwise -/

theorem witness_LoadImmediateReplacesOneHalf :
    atEdge.Wf ∧ (Instr.loadImmediate 7 true 0xFF).wellFormed atEdge.cfg = true ∧
    (Instr.loadImmediate 7 false 0xFF).wellFormed atEdge.cfg = true := by decide

theorem witness_LoadImmediatePairBuildsWord :
    atEdge.Wf ∧ (Instr.loadImmediate 1 false 170).wellFormed atEdge.cfg = true ∧
    (Instr.loadImmediate 1 true 170).wellFormed atEdge.cfg = true := by decide

theorem witness_AddWrapsAndCompletes :
    atEdge.Wf ∧ (Instr.add 1 (.imm 0xFF80)).wellFormed atEdge.cfg = true ∧
    OperandDenotes atEdge (.imm 0xFF80) 0xFF80 ∧
    (Instr.add 1 (.reg 7)).wellFormed atEdge.cfg = true ∧ OperandDenotes atEdge (.reg 7) 0 :=
  ⟨by decide, by decide, rfl, by decide, by decide, rfl⟩

theorem witness_SubWrapsAndCompletes :
    atEdge.Wf ∧ (Instr.sub 1 (.imm 127)).wellFormed atEdge.cfg = true ∧
    OperandDenotes atEdge (.imm 127) 127 ∧
    (Instr.sub 1 (.reg 2)).wellFormed atEdge.cfg = true ∧
    OperandDenotes atEdge (.reg 2) 0xFFFF :=
  ⟨by decide, by decide, rfl, by decide, by decide, rfl⟩

theorem witness_MulWrapsAndCompletes :
    atEdge.Wf ∧ (Instr.mul 2 (.imm 0xFFFF)).wellFormed atEdge.cfg = true ∧
    OperandDenotes atEdge (.imm 0xFFFF) 0xFFFF ∧
    (Instr.mul 2 (.reg 2)).wellFormed atEdge.cfg = true ∧
    OperandDenotes atEdge (.reg 2) 0xFFFF :=
  ⟨by decide, by decide, rfl, by decide, by decide, rfl⟩

theorem witness_MulIgnoresSignedness :
    atEdge.Wf ∧ (Instr.mul 3 (.imm 0xFF80)).wellFormed atEdge.cfg = true ∧
    OperandDenotes atEdge (.imm 0xFF80) 0xFF80 := ⟨by decide, by decide, rfl⟩

/-- `x[1] = 16`, `x[2] = 17`: the last shift amount in range and the first out of range. -/
def amounts : State := small 16 17 0xABCD []

theorem witness_ShrInRangeCompletes :
    amounts.Wf ∧ (Instr.shr 3 (.imm 0)).wellFormed amounts.cfg = true ∧
    OperandDenotes amounts (.imm 0) 0 ∧
    (Instr.shr 3 (.reg 1)).wellFormed amounts.cfg = true ∧ OperandDenotes amounts (.reg 1) 16 ∧
    16 ≤ amounts.cfg.registerBits :=
  ⟨by decide, by decide, rfl, by decide, ⟨by decide, rfl⟩, by decide⟩

theorem witness_ShlInRangeCompletes :
    amounts.Wf ∧ (Instr.shl 3 (.imm 16)).wellFormed amounts.cfg = true ∧
    OperandDenotes amounts (.imm 16) 16 ∧
    (Instr.shl 1 (.reg 1)).wellFormed amounts.cfg = true ∧ OperandDenotes amounts (.reg 1) 16 ∧
    16 ≤ amounts.cfg.registerBits :=
  ⟨by decide, by decide, rfl, by decide, ⟨by decide, rfl⟩, by decide⟩

theorem witness_ShiftOutOfRangeChangesNothing :
    OperandDenotes amounts (.reg 2) 17 ∧ OperandDenotes amounts (.imm 17) 17 ∧
    amounts.cfg.registerBits < 17 := ⟨⟨by decide, rfl⟩, rfl, by decide⟩

theorem witness_NegativeShiftImmediateIsRejected :
    ((Instr.shr 3 (.imm 0xFF80)).wellFormed amounts.cfg = true ∧
      (0xFF80 : Nat).testBit (amounts.cfg.registerBits - 1) = true) ∧
    ((Instr.shr 3 (.imm 0xFFFF)).wellFormed amounts.cfg = true ∧
      (0xFFFF : Nat).testBit (amounts.cfg.registerBits - 1) = true) ∧
    16 ≤ defaultConfig.registerBits := by decide

theorem witness_BadRegisterOperandFaults :
    amounts.cfg.registerCount ≤ 8 ∧ amounts.cfg.registerCount ≤ 255 := by decide

theorem witness_BitwiseTwoRegisterCompletes :
    amounts.Wf ∧ 7 < amounts.cfg.registerCount ∧ 0 < amounts.cfg.registerCount := by decide

theorem witness_NotComplementsAndRestores : amounts.Wf ∧ 7 < amounts.cfg.registerCount := by decide

theorem witness_PseudoInstructionsDoTheirWork :
    amounts.Wf ∧ 7 < amounts.cfg.registerCount ∧ 3 < amounts.cfg.registerCount ∧ 7 ≠ 3 := by decide

/-! ## Witnesses: the Dispatcher -/

/-- Phase `Decoded` with `i` in the latch. -/
def latched (i : Instr) (s : State) : State := { s with phase := .decoded, latch := some i }

theorem witness_StepRunsDecodedInstruction :
    let calling (c : Call) : State := { latched (.not 1) atEdge with calls := [c] }
    (decode atEdge.cfg 0x0440 = .ok (.load 2 1 0) ∧
      (calling (.decode 0x0440)).calls = .decode 0x0440 :: [] ∧
      (calling (.cycle 0x0440)).calls = .cycle 0x0440 :: []) ∧
    (decode atEdge.cfg 0xC000 = .error (.unknownInstruction 12) ∧
      (calling (.decode 0xC000)).calls = .decode 0xC000 :: [] ∧
      (calling (.cycle 0xC000)).calls = .cycle 0xC000 :: []) ∧
    ((calling .execute).calls = .execute :: [] ∧ (calling .execute).phase = .decoded ∧
      (calling .execute).latch = some (.not 1)) :=
  ⟨⟨rfl, rfl, rfl⟩, ⟨rfl, rfl, rfl⟩, ⟨rfl, rfl, rfl⟩⟩

theorem witness_StepOfIdleExecuteAndOfPlacedWord :
    (∃ s : State, s.calls = .execute :: [] ∧ s.phase ≠ .decoded) ∧
    decode atEdge.cfg (0xB200 % 2 ^ 16 % 2 ^ atEdge.cfg.registerBits) = .ok (.not 1) ∧
    decode atEdge.cfg (0xC000 % 2 ^ 16 % 2 ^ atEdge.cfg.registerBits) =
      .error (.unknownInstruction 12) :=
  ⟨⟨{ atEdge with calls := [.execute] }, rfl, by decide⟩, rfl, rfl⟩

theorem witness_RegisteredDecoderNeverFails :
    atEdge.cfg = amounts.cfg ∧
    ∃ m, registrationOrder[opcodeIndex atEdge.cfg 0xB000]? = some m := ⟨rfl, .not, by decide⟩

theorem witness_LatestDecodeReplacesLatch : opcodeIndex atEdge.cfg 0xBFFF < 12 := by decide

theorem witness_ExecuteOutsideDecodedReturnsError :
    State.reset.phase ≠ .decoded ∧
    ({ State.reset with phase := .executed } : State).phase ≠ .decoded := by decide

theorem witness_ExecuteEndsByStatusClass :
    (∃ t, exec (.shl 3 (.imm 17)) amounts = .next t) ∧
    (∃ t, exec (.store 2 3 0) atEdge = .next t) := ⟨⟨_, rfl⟩, ⟨_, rfl⟩⟩

theorem witness_InstructionExecutesAtMostOnce :
    (∃ t, executeTransaction (latched (.add 1 (.imm 1)) amounts) = .next t) ∧
    (∃ t, executeTransaction State.reset = .next t) := ⟨⟨_, rfl⟩, ⟨_, rfl⟩⟩

/-! ## Witnesses: the whole machine -/

theorem witness_HardErrorsArePrecise :
    (∃ t, (amounts.withFetchWord 16 0x7911).calls ≠ [] ∧
      step (amounts.withFetchWord 16 0x7911) = .next t ∧ t.returned = some .shiftRange ∧
      Status.shiftRange.isHardError = true) ∧
    (∃ t, (amounts.withFetchWord 16 0xC000).calls ≠ [] ∧
      step (amounts.withFetchWord 16 0xC000) = .next t ∧ t.returned = some .decodeUnknown ∧
      Status.decodeUnknown.isHardError = true) :=
  ⟨⟨_, by decide, rfl, rfl, rfl⟩, ⟨_, by decide, rfl, rfl, rfl⟩⟩

theorem witness_StepKeepsWellFormed :
    (atEdge.withFetchWord 16 0x0440).Wf ∧
    ∃ t, step (atEdge.withFetchWord 16 0x0440) = .next t := ⟨by decide, _, rfl⟩

theorem witness_EveryRunStaysWellFormed :
    ∃ s t, construct defaultParams (fun i => i) (fun _ => 0x5A) = .ok s ∧
      runSteps 1 { s with calls := [.decode 0x3901] } = .next t :=
  ⟨launchState defaultConfig (fun i => i) (fun _ => 0x5A), _, dif_pos (by decide), rfl⟩

theorem witness_RunKeepsConfigurationAndTakesCalls :
    (∃ t, runSteps 1 (amounts.withFetchWord 16 0xB200) = .next t) ∧ amounts.calls = [] :=
  ⟨⟨_, rfl⟩, rfl⟩

theorem witness_OnlyDestinationIsWritten :
    (∃ t, exec (.load 3 2 0) atEdge = .next t ∧ destination (.load 3 2 0) ≠ some 2) ∧
    (∃ t, exec (.store 2 3 0) atEdge = .next t ∧ destination (.store 2 3 0) ≠ some 3) ∧
    (∃ t, step (atEdge.withFetchWord 16 0xC000) = .next t ∧
      nextExecuted (atEdge.withFetchWord 16 0xC000) = none) :=
  ⟨⟨_, rfl, by decide⟩, ⟨_, rfl, by decide⟩, ⟨_, rfl, by decide⟩⟩

theorem witness_OnlyStoreWritesMemory :
    (∃ t, step (atEdge.withFetchWord 16 0x0440) = .next t ∧
      nextExecuted (atEdge.withFetchWord 16 0x0440) = some (.load 2 1 0)) ∧
    (∃ t, step (atEdge.withFetchWord 16 0x1280) = .next t ∧ atEdge.cfg.memorySize ≤ 65536 ∧
      (atEdge.withFetchWord 16 0x1280).Wf) :=
  ⟨⟨_, rfl, by decide⟩, ⟨_, rfl, by decide, by decide⟩⟩

theorem witness_StepFaultsExactlyOnBadRegisterOperand :
    (∃ i, nextExecuted (amounts.withFetchWord 16 0x3108) = some i ∧
      namesNoRegister (amounts.withFetchWord 16 0x3108).cfg i) ∧
    ¬ (∃ i, nextExecuted amounts = some i ∧ namesNoRegister amounts.cfg i) :=
  ⟨⟨_, rfl, 1, 8, by decide, .inl rfl⟩, fun ⟨_, h, _⟩ => nomatch h⟩

theorem witness_StatusIsReturnedAndNeverRead :
    ∃ t, (amounts.withFetchWord 16 0xB200).calls ≠ [] ∧
      step (amounts.withFetchWord 16 0xB200) = .next t := ⟨_, by decide, rfl⟩

theorem witness_EveryAdmissibleStatusNumberIsPossible :
    ((-501 : Int) < -500) ∧ ((-500 : Int) ≤ -500 ∧ (-500 : Int) < 0) ∧
    ((-500 : Int) ≤ -1 ∧ (-1 : Int) < 0) ∧ (0 : Int) = 0 := by decide

theorem witness_DriverAgreesWithSteps :
    (∃ t, runProgram [0xB200] amounts = .done 1 [] t) ∧
    (∃ t, runProgram [0x06BF] { atEdge with regs := [0, 0, 0, 0, 0, 0, 0, 0] } =
      .done 1 [(0, .lastMemoryByte)] t) ∧
    (∃ t, runProgram [0x7911] amounts = .stop 0 .shiftRange [] t) ∧
    runProgram [0x3108] amounts = .faulted 0 .badRegisterIndex :=
  ⟨⟨_, rfl⟩, ⟨_, rfl⟩, ⟨_, rfl⟩, rfl⟩

end Sys2Proof.Tests
end

/-! PROOFS. The default configuration, and memory as a function of the address: a byte read after a
byte write, and canonical memories determined by what they read. -/

namespace Sys2Proof.Machine

/-! ## The canonical form and the byte read, entry by entry -/

theorem readByte_cons (k : Nat) (v : Byte) (rest : Memory) (a : Nat) :
    readByte ((k, v) :: rest) a = if k = a then v else readByte rest a := rfl

/-- A canonical memory lists its lowest address first, with a byte other than the fill byte. -/
theorem wf_cons_iff {k : Nat} {v : Byte} {rest : Memory} :
    Memory.wf ((k, v) :: rest) ↔ (∀ x ∈ rest, k < x.1) ∧ v ≠ Config.fillByte ∧ rest.wf := by
  simp only [Memory.wf, List.pairwise_cons, List.forall_mem_cons]
  tauto

/-- Behind its first entry a canonical memory lists only higher addresses. -/
theorem readByte_rest_of_le {k a : Nat} {v : Byte} {rest : Memory}
    (h : Memory.wf ((k, v) :: rest)) (ha : a ≤ k) : readByte rest a = Config.fillByte := by
  obtain ⟨hlt, -, -⟩ := wf_cons_iff.mp h
  exact readByte_unlisted fun x hx => by have := hlt x hx; omega

/-- The entries of a canonical memory are the addresses that do not read as the fill byte, each with
the byte it reads as. -/
theorem mem_iff_readByte {m : Memory} (h : m.wf) {x : Host.Cell} :
    x ∈ m ↔ readByte m x.1 = x.2 ∧ x.2 ≠ Config.fillByte := by
  constructor
  · exact fun hx => ⟨readByte_listed h hx, h.2 x hx⟩
  · rintro ⟨hread, hfill⟩
    obtain ⟨y, hy, hyx⟩ : ∃ y ∈ m, y.1 = x.1 := by
      by_contra hnone
      push Not at hnone
      exact hfill (hread ▸ readByte_unlisted hnone)
    have hbyte : y.2 = x.2 := by rw [← readByte_listed h hy, hyx, hread]
    exact Prod.ext hyx hbyte ▸ hy

/-! ## The byte write, by where the address falls -/

theorem writeByte_cons_of_lt {k a : Nat} (h : k < a) (v b : Byte) (rest : Memory) :
    writeByte ((k, v) :: rest) a b = (k, v) :: writeByte rest a b := by
  simp [writeByte, h]

theorem writeByte_cons_self (a : Nat) (v b : Byte) (rest : Memory) :
    writeByte ((a, v) :: rest) a b = if b = Config.fillByte then rest else (a, b) :: rest := by
  simp [writeByte]

theorem writeByte_cons_of_gt {k a : Nat} (h : a < k) (v b : Byte) (rest : Memory) :
    writeByte ((k, v) :: rest) a b =
      if b = Config.fillByte then (k, v) :: rest else (a, b) :: (k, v) :: rest := by
  simp [writeByte, h.le.not_gt, h.ne']

/-- A byte put in front, or left out because it is the fill byte, reads as written at its address
when the memory behind it does not list that address. -/
theorem readByte_consUnlessFill {m : Memory} {a : Nat} (h : readByte m a = Config.fillByte)
    (b : Byte) (x : Nat) :
    readByte (if b = Config.fillByte then m else (a, b) :: m) x =
      if x = a then b else readByte m x := by
  by_cases hb : b = Config.fillByte
  · by_cases hx : x = a <;> simp [hb, hx, h]
  · simp [hb, readByte_cons, eq_comm]

/-- Read after write in a canonical memory, by induction on its entries and by where the written
address falls against the first of them. -/
theorem readByte_writeByte {m : Memory} (h : m.wf) (a x : Nat) (b : Byte) :
    readByte (writeByte m a b) x = if x = a then b else readByte m x := by
  induction m with
  | nil => exact readByte_consUnlessFill rfl b x
  | cons y rest ih =>
    obtain ⟨k, v⟩ := y
    obtain ⟨-, -, hrest⟩ := wf_cons_iff.mp h
    rcases lt_trichotomy k a with hka | rfl | hak
    · rw [writeByte_cons_of_lt hka, readByte_cons, readByte_cons, ih hrest]
      by_cases hx : k = x
      · simp [hx, (hx ▸ hka).ne]
      · simp [hx]
    · rw [writeByte_cons_self, readByte_consUnlessFill (readByte_rest_of_le h le_rfl),
        readByte_cons]
      by_cases hx : x = k
      · simp [hx]
      · simp [hx, Ne.symm hx]
    · have hfill : readByte ((k, v) :: rest) a = Config.fillByte := by
        rw [readByte_cons, if_neg hak.ne', readByte_rest_of_le h hak.le]
      rw [writeByte_cons_of_gt hak, readByte_consUnlessFill hfill]

/-! ## The obligations -/

/-- Settles O18, by induction on the list of entries (`readByte_writeByte`). -/
theorem byteReadAfterWrite : Obligations.ByteReadAfterWrite :=
  fun _ a x b h => readByte_writeByte h a x b

/-- Settles O20: memories that read alike have the same entries (`mem_iff_readByte`), and a strictly
rising list is determined by its entries. -/
theorem equalContentsEqualMemory : Obligations.EqualContentsEqualMemory := by
  intro m m' h h' hread
  have hmem : ∀ x, x ∈ m ↔ x ∈ m' := fun x => by
    rw [mem_iff_readByte h, mem_iff_readByte h', hread]
  have : Std.Asymm fun x y : Host.Cell => x.1 < y.1 := ⟨fun _ _ => lt_asymm⟩
  exact h.1.eq_of_mem_iff h'.1 hmem

/-- Settles O1: the Layout Calculator and the width functions evaluated at `16/8/16`. -/
theorem defaultLayoutValues : Obligations.DefaultLayoutValues := by
  have hlayout : computeLayout defaultParams =
      { bitsForOpcode := 4, bitsForRegister := 3, opcodeMask := 0xF000, memorySize := 65536 } := by
    decide
  exact ⟨hlayout, by decide⟩

end Sys2Proof.Machine

/-! PROOFS. The state of the block: the widths of a valid configuration, construction, what decoding
gives, what a step can do, and the invariant along every run. -/

namespace Sys2Proof

/-! ## Widths of a valid configuration (10_state.md R22) -/

/-- Sixteen opcode slots need four opcode bits. -/
theorem four_le_bitsForOpcode (c : Config) : 4 ≤ c.bitsForOpcode := by
  obtain ⟨⟨hslots, -⟩, -, h16, -⟩ := c.valid
  rw [hslots] at h16
  exact (Nat.pow_le_pow_iff_right one_lt_two).mp (h16 : 2 ^ 4 ≤ 2 ^ c.bitsForOpcode)

/-- Settles O2: with at least four opcode bits, condition (e) rules `R = 8` out, and the fit
conditions turn the truncated differences of the widths into sums. -/
theorem validConfigurationFitsFormats : Obligations.ValidConfigurationFitsFormats := by
  intro c
  have hO := four_le_bitsForOpcode c
  obtain ⟨⟨hslots, hcount⟩, ⟨hpos, hbytes⟩, -, ⟨hoff, hopnd⟩, himm, -⟩ := c.valid
  refine ⟨by omega, hO, ?_, ?_, hcount, hslots, ?_⟩
  · simp only [Params.registerBytes]; omega
  · simp only [Params.halfBits]; omega
  · simp only [Params.offsetBits, Params.operandBits, Params.loadImmUnusedBits,
      Params.bitsBelowOpcode, Params.halfBits]
    omega

/-! ## Sign extension and the decoders (30_encoding.md R76, R77) -/

/-- The top bit of a `width`-bit value splits its range in halves. -/
theorem testBit_top_iff {width f : Nat} (hw : 1 ≤ width) (hf : f < 2 ^ width) :
    f.testBit (width - 1) = true ↔ 2 ^ (width - 1) ≤ f := by
  refine ⟨Nat.ge_two_pow_of_testBit, fun h => ?_⟩
  exact Nat.testBit_of_two_pow_le_and_two_pow_add_one_gt h (by rwa [Nat.sub_add_cancel hw])

/-- The ones that sign extension puts above a field are the all-ones word of the upper bits. -/
theorem trunc_allOnes_shiftLeft {r width : Nat} (h : width ≤ r) :
    Word.trunc r (Word.allOnes r <<< width) = Word.allOnes (r - width) <<< width := by
  refine Nat.eq_of_testBit_eq fun i => ?_
  simp only [Word.trunc, Word.allOnes, Nat.testBit_mod_two_pow, Nat.testBit_shiftLeft,
    Nat.testBit_two_pow_sub_one]
  rw [Bool.eq_iff_iff]
  simp only [Bool.and_eq_true, decide_eq_true_iff]
  omega

/-- Sign extension leaves a field in the low half of its range as it is, and puts one in the high
half at the same place below `2^r`. -/
theorem signExtend_cases {r width f : Nat} (hw : 1 ≤ width) (hr : width ≤ r) (hf : f < 2 ^ width) :
    (f < 2 ^ (width - 1) ∧ signExtend r width f = f) ∨
    (2 ^ (width - 1) ≤ f ∧ signExtend r width f = f + (2 ^ r - 2 ^ width)) := by
  by_cases htop : 2 ^ (width - 1) ≤ f
  · refine .inr ⟨htop, ?_⟩
    have hones : Word.allOnes (r - width) * 2 ^ width = 2 ^ r - 2 ^ width := by
      rw [Word.allOnes, Nat.sub_mul, ← pow_add, Nat.sub_add_cancel hr, Nat.one_mul]
    rw [signExtend, if_pos ((testBit_top_iff hw hf).mpr htop), trunc_allOnes_shiftLeft hr,
      Nat.or_comm, ← Nat.shiftLeft_add_eq_or_of_lt hf, Nat.shiftLeft_eq, hones, Nat.add_comm]
  · exact .inl ⟨by omega, by rw [signExtend, if_neg (mt (testBit_top_iff hw hf).mp htop)]⟩

/-- What sign extension gives is a value of a signed field. -/
theorem signedFieldValue_signExtend {c : Config} {width : Nat} (hw : 1 ≤ width)
    (hr : width ≤ c.registerBits) (w lo : Nat) :
    signedFieldValue c width (signExtend c.registerBits width (field w lo width)) = true := by
  have hf := field_lt w lo width
  have hle : 2 ^ width ≤ 2 ^ c.registerBits := Nat.pow_le_pow_right (by decide) hr
  have htwo : 2 ^ width = 2 * 2 ^ (width - 1) := by rw [← pow_succ', Nat.sub_add_cancel hw]
  simp only [signedFieldValue, Bool.or_eq_true, Bool.and_eq_true, decide_eq_true_iff]
  rcases signExtend_cases hw hr hf with ⟨hlow, hext⟩ | ⟨hhigh, hext⟩
  · exact .inl (by rwa [hext])
  · exact .inr (by omega)

/-- Every field of `B` bits names a register. -/
theorem registerInRange_field (c : Config) (w lo : Nat) :
    registerInRange c (field w lo c.bitsForRegister) = true :=
  (registerInRange_iff c _).mpr (field_lt _ _ _)

theorem offsetOperand_signedFieldValue (c : Config) (w : Nat) :
    signedFieldValue c c.offsetBits (offsetOperand c w) = true := by
  obtain ⟨-, -, -, -, -, -, hP, hoff, h1, -⟩ := validConfigurationFitsFormats c
  exact signedFieldValue_signExtend h1 (by omega) w 0

theorem arithOperand_wellFormed (c : Config) (w : Nat) :
    (arithOperand c w).wellFormed c = true := by
  obtain ⟨-, -, -, -, -, -, hP, -, -, hopnd, h1, -⟩ := validConfigurationFitsFormats c
  unfold arithOperand
  split
  · exact signedFieldValue_signExtend (by omega) (by omega) w 0
  · exact decide_eq_true (field_lt _ _ _)

/-- What a decoder gives, by its format: register fields name registers, and the remaining field
holds a value of its width. -/
theorem decoderOf_wellFormed (m : Mnemonic) (c : Config) (w : Nat) :
    (decoderOf m c w).wellFormed c = true := by
  have arith :
      (registerInRange c (arithDestination c w) && (arithOperand c w).wellFormed c) = true :=
    Bool.and_eq_true_iff.mpr ⟨registerInRange_field c w _, arithOperand_wellFormed c w⟩
  have two :
      (registerInRange c (firstRegister c w) && registerInRange c (secondRegister c w)) = true :=
    Bool.and_eq_true_iff.mpr ⟨registerInRange_field c w _, registerInRange_field c w _⟩
  cases m with
  | load | store => exact Bool.and_eq_true_iff.mpr ⟨two, offsetOperand_signedFieldValue c w⟩
  | loadImmediate =>
    exact Bool.and_eq_true_iff.mpr
      ⟨registerInRange_field c w _, decide_eq_true (field_lt _ _ _)⟩
  | add | sub | mul | shr | shl => exact arith
  | and | or | xor => exact two
  | not => exact registerInRange_field c w _

/-- Each mnemonic's decoder gives an instruction of that mnemonic. -/
theorem mnemonic_decoderOf (m : Mnemonic) (c : Config) (w : Nat) :
    (decoderOf m c w).mnemonic = m := by
  cases m <;> rfl

/-- Decoding succeeds with what the decoder registered at the opcode index gives. -/
theorem decode_eq_ok_iff {c : Config} {w : Nat} {i : Instr} :
    decode c w = .ok i ↔
      ∃ m, registrationOrder[opcodeIndex c w]? = some m ∧ decoderOf m c w = i := by
  unfold decode
  cases registrationOrder[opcodeIndex c w]? <;> simp

/-- Settles O10: an instruction comes from the decoder registered at the opcode index
(`decode_eq_ok_iff`), and every decoder gives well-formed operands. -/
theorem decodedInstructionIsWellFormed : Obligations.DecodedInstructionIsWellFormed := by
  intro c w i h
  obtain ⟨m, hm, rfl⟩ := decode_eq_ok_iff.mp h
  exact ⟨decoderOf_wellFormed m c w, by rw [mnemonic_decoderOf, hm]⟩

/-! ## Status numbers (10_state.md R33) -/

/-- The three ranges exclude each other, so a number tells its class. -/
theorem StatusClass.number_range (k : StatusClass) (free : Nat) :
    (k = .hardError ↔ k.number free < -500) ∧
    (k = .warning ↔ -500 ≤ k.number free ∧ k.number free < 0) ∧
    (k = .success ↔ k.number free = 0) := by
  cases k with
  | success => simp [StatusClass.number]
  | warning =>
    have := Nat.mod_lt free (show 500 > 0 by decide)
    simp [StatusClass.number]; omega
  | hardError => simp [StatusClass.number]; omega

/-- Settles O58: the number of a status is a number of its class, whatever the free part is. -/
theorem statusNumbersFollowClasses : Obligations.StatusNumbersFollowClasses := by
  intro st
  obtain ⟨hhard, hwarn, hsucc⟩ := st.classOf.number_range (Config.statusFree st)
  exact ⟨hhard, hwarn, hsucc, by rw [Status.isHardError, beq_iff_eq]; exact hhard⟩

end Sys2Proof

namespace Sys2Proof.Machine

/-! ## Construction -/

/-- The spec's integer differences of 10_state.md R22 are the model's sums, at the logarithms that a
power of two fixes. -/
theorem valid_iff_fits (p : Params) :
    p.Valid ↔ ∃ o b : Nat,
      p.instructionSlots = 2 ^ o ∧ p.registerCount = 2 ^ b ∧
      0 < p.registerBits ∧ 8 ∣ p.registerBits ∧ 16 ≤ p.instructionSlots ∧
      (1 : Int) ≤ p.registerBits - o - 2 * b ∧
      max 1 (b : Int) ≤ p.registerBits - o - 1 - b ∧
      (0 : Int) ≤ p.registerBits - o - b - 1 - p.registerBits / 2 := by
  constructor
  · rintro ⟨⟨hslots, hcount⟩, ⟨hpos, hbytes⟩, h16, ⟨hoff, hopnd⟩, himm, -⟩
    exact ⟨_, _, hslots, hcount, hpos, Nat.dvd_of_mod_eq_zero hbytes, h16, by omega, by omega,
      by omega⟩
  · rintro ⟨o, b, hslots, hcount, hpos, hbytes, h16, hoff, hopnd, himm⟩
    have ho : p.bitsForOpcode = o := by rw [Params.bitsForOpcode, hslots, Nat.log2_two_pow]
    have hb : p.bitsForRegister = b := by rw [Params.bitsForRegister, hcount, Nat.log2_two_pow]
    rw [Params.Valid, ho, hb]
    exact ⟨⟨hslots, hcount⟩, ⟨hpos, Nat.mod_eq_zero_of_dvd hbytes⟩, h16, ⟨by omega, by omega⟩,
      by omega, by omega⟩

/-- Construction with valid parameters gives the launch state. -/
theorem construct_of_valid {p : Params} (h : p.Valid) (initRegs : Nat → Nat)
    (initMem : Nat → Byte) :
    construct p initRegs initMem = .ok (launchState ⟨p, h⟩ initRegs initMem) := dif_pos h

/-- Construction with other parameters gives no processor. -/
theorem construct_of_not_valid {p : Params} (h : ¬ p.Valid) (initRegs : Nat → Nat)
    (initMem : Nat → Byte) :
    construct p initRegs initMem = .error .invalidConfiguration := dif_neg h

/-- A state that construction gives is the launch state of a valid configuration. -/
theorem construct_eq_ok {p : Params} {initRegs : Nat → Nat} {initMem : Nat → Byte} {s : State}
    (h : construct p initRegs initMem = .ok s) :
    ∃ c : Config, c.toParams = p ∧ s = launchState c initRegs initMem := by
  by_cases hp : p.Valid
  · rw [construct_of_valid hp] at h
    exact ⟨⟨p, hp⟩, rfl, (Except.ok.inj h).symm⟩
  · rw [construct_of_not_valid hp] at h
    cases h

/-- Settles O4: the conditions with integer differences are `Params.Valid` (`valid_iff_fits`), which
construction checks. -/
theorem constructionSucceedsExactlyWhenValid :
    Obligations.ConstructionSucceedsExactlyWhenValid := by
  intro p initRegs initMem fits
  have hiff : p.Valid ↔ fits := valid_iff_fits p
  exact ⟨fun h => ⟨_, construct_of_valid (hiff.mpr h) initRegs initMem, rfl⟩,
    fun h => construct_of_not_valid (mt hiff.mp h) initRegs initMem⟩

/-- The launch memory lists the addresses below its size whose contents differ from the fill
byte. -/
theorem mem_memoryOf {size : Nat} {contents : Nat → Byte} {x : Host.Cell} :
    x ∈ memoryOf size contents ↔
      x.1 < size ∧ contents x.1 ≠ Config.fillByte ∧ x.2 = contents x.1 := by
  obtain ⟨k, v⟩ := x
  simp only [memoryOf, List.mem_filterMap, List.mem_range, Option.ite_none_left_eq_some,
    Option.some.injEq, Prod.mk.injEq]
  constructor
  · rintro ⟨a, ha, hfill, rfl, rfl⟩
    exact ⟨ha, hfill, rfl⟩
  · rintro ⟨hk, hfill, rfl⟩
    exact ⟨k, hk, hfill, rfl, rfl⟩

/-- The launch memory reads as its contents. -/
theorem readByte_memoryOf {size a : Nat} (h : a < size) (contents : Nat → Byte) :
    readByte (memoryOf size contents) a = contents a := by
  by_cases hfill : contents a = Config.fillByte
  · rw [hfill]
    refine readByte_unlisted fun x hx hxa => ?_
    obtain ⟨-, hne, -⟩ := mem_memoryOf.mp hx
    exact hne (hxa ▸ hfill)
  · exact readByte_listed (memoryOf_wf size contents) (x := (a, contents a))
      (mem_memoryOf.mpr ⟨h, hfill, rfl⟩)

/-- A register of the launch state holds its launch word, reduced. -/
theorem readReg_launchState {c : Config} {i : Nat} (h : i < c.registerCount)
    (initRegs : Nat → Nat) (initMem : Nat → Byte) :
    readReg (launchState c initRegs initMem) i = initRegs i % 2 ^ c.registerBits := by
  simp [readReg, launchState, h, Word.trunc]

/-- The launch state meets the invariant. -/
theorem launchState_wf (c : Config) (initRegs : Nat → Nat) (initMem : Nat → Byte) :
    (launchState c initRegs initMem).Wf := by
  refine ⟨⟨by simp [launchState], fun v hv => ?_⟩,
    ⟨memoryOf_wf _ _, memoryOf_inBounds _ _⟩, by simp [launchState], rfl⟩
  obtain ⟨i, -, rfl⟩ := List.mem_map.mp hv
  exact Nat.mod_lt _ (Nat.two_pow_pos _)

/-- Settles O5: what construction gives is the launch state (`construct_eq_ok`). -/
theorem constructionLeavesLaunchState : Obligations.ConstructionLeavesLaunchState := by
  intro p initRegs initMem s h
  obtain ⟨c, rfl, rfl⟩ := construct_eq_ok h
  exact ⟨rfl, launchState_wf c initRegs initMem,
    fun i hi => readReg_launchState hi initRegs initMem,
    fun a ha => readByte_memoryOf ha initMem, rfl, rfl, rfl, rfl⟩

/-- A memory full of the fill byte lists nothing. -/
theorem memoryOf_fillByte (size : Nat) : memoryOf size (fun _ => Config.fillByte) = [] :=
  List.eq_nil_iff_forall_not_mem.mpr fun _ hx => by
    obtain ⟨-, hne, -⟩ := mem_memoryOf.mp hx
    exact hne rfl

/-- Settles O6: the two states agree field by field; memory does by `memoryOf_fillByte`. -/
theorem resetIsDefaultConstruction : Obligations.ResetIsDefaultConstruction := by
  have hregs : ((List.range defaultConfig.registerCount).map fun _ =>
      Word.trunc defaultConfig.registerBits Config.resetRegister) =
      List.replicate defaultConfig.registerCount Config.resetRegister := by decide
  refine (construct_of_valid defaultConfig.valid _ _).trans ?_
  rw [launchState, hregs, memoryOf_fillByte]
  rfl

/-- Settles O7: reset is a construction, and every construction meets the invariant. -/
theorem resetIsWellFormed : Obligations.ResetIsWellFormed := by
  obtain ⟨-, hwf, -⟩ := constructionLeavesLaunchState _ _ _ _ resetIsDefaultConstruction
  exact hwf

/-! ## The invariant, operation by operation -/

theorem writeReg_wf {s : State} (h : s.Wf) (d v : Nat) : (writeReg d v s).Wf := by
  obtain ⟨⟨hlen, hword⟩, hmem, hphase, hlatch⟩ := h
  refine ⟨⟨by simpa using hlen, fun x hx => ?_⟩, hmem, hphase, hlatch⟩
  rcases List.mem_or_eq_of_mem_set hx with hx | rfl
  · exact hword x hx
  · exact Nat.mod_lt _ (Nat.two_pow_pos _)

theorem storeBytes_wf {s : State} (h : s.Wf) {a n : Nat} (hn : a + n ≤ s.cfg.memorySize) (v : Nat) :
    (storeBytes a n v s).Wf := by
  obtain ⟨hregs, ⟨hcanon, hbound⟩, hphase, hlatch⟩ := h
  exact ⟨hregs, ⟨memWrite_wf hcanon a n v, memWrite_inBounds hbound hn v⟩, hphase, hlatch⟩

theorem endExecute_wf {s : State} (h : s.Wf) (st : Status) : (endExecute st s).Wf := by
  obtain ⟨hregs, hmem, -, -⟩ := h
  refine ⟨hregs, hmem, ?_, rfl⟩
  rw [endExecute_phase]
  split <;> simp

theorem executeUnknown_wf {s : State} (h : s.Wf) : (executeUnknown s).Wf := h

/-- The queue of calls is no part of the invariant. -/
theorem setCalls_wf {s : State} (h : s.Wf) (calls : List Call) : { s with calls := calls }.Wf := h

/-- A full latch in phase `Decoded` keeps the invariant when its instruction is well formed. -/
theorem setDecoded_wf {s : State} (h : s.Wf) {i : Instr} (hi : i.wellFormed s.cfg = true)
    (calls : List Call) (r : Option Status) :
    { s with calls := calls, phase := .decoded, latch := some i, returned := r }.Wf := by
  obtain ⟨hregs, hmem, -, -⟩ := h
  exact ⟨hregs, hmem, by simp, by simpa using hi⟩

theorem decodeTransaction_wf {s : State} (h : s.Wf) (w : Nat) : (decodeTransaction w s).Wf := by
  rcases decodeTransaction_cases w s with ⟨i, hdec, ht⟩ | ⟨e, -, ht⟩ <;> rw [ht]
  · obtain ⟨hi, -⟩ := decodedInstructionIsWellFormed _ _ _ hdec
    exact setDecoded_wf h hi s.calls _
  · obtain ⟨hregs, hmem, -, -⟩ := h
    exact ⟨hregs, hmem, by simp, rfl⟩

/-- Every meaning keeps the invariant, whichever of its three ends it takes. -/
theorem exec_wf {i : Instr} {s t : State} (h : s.Wf) (ht : exec i s = .next t) : t.Wf := by
  rcases exec_next ht with
    ⟨-, -, -, rfl⟩ | ⟨d, v, st, -, -, rfl⟩ | ⟨_, src, _, n, st, -, hn, -, rfl⟩
  · exact endExecute_wf h _
  · exact endExecute_wf (writeReg_wf h d v) st
  · exact endExecute_wf (storeBytes_wf h hn _) st

/-! ## What a step can do -/

/-- Everything a step can do: hold the state with no call pending; execute the instruction that
`nextExecuted` names, from the state with that instruction in the latch; or, with no instruction to
execute, decode only or answer `E_EXEC_UNKNOWN`. -/
theorem step_cases (s : State) :
    (s.calls = [] ∧ nextExecuted s = none ∧ step s = .next s) ∨
    (s.calls ≠ [] ∧ ∃ i r, nextExecuted s = some i ∧ step s = exec i
      { s with calls := s.calls.tail, phase := .decoded, latch := some i, returned := r }) ∨
    (s.calls ≠ [] ∧ nextExecuted s = none ∧ ∃ w, step s =
      .next (decodeTransaction w { s with calls := s.calls.tail })) ∨
    (s.calls ≠ [] ∧ nextExecuted s = none ∧ step s =
      .next (executeUnknown { s with calls := s.calls.tail })) := by
  obtain ⟨cfg, regs, mem, phase, latch, calls, returned⟩ := s
  cases calls with
  | nil => exact .inl ⟨rfl, rfl, rfl⟩
  | cons c rest =>
    refine .inr ?_
    cases c with
    | decode w => exact .inr (.inl ⟨by simp, rfl, w, rfl⟩)
    | execute =>
      rcases executeTransaction_cases ⟨cfg, regs, mem, phase, latch, rest, returned⟩ with
        ⟨i, hp, hl, he⟩ | ⟨hno, he⟩
      · obtain rfl : phase = .decoded := hp
        obtain rfl : latch = some i := hl
        exact .inl ⟨by simp, i, returned, rfl, he⟩
      · refine .inr (.inr ⟨by simp, ?_, he⟩)
        rcases hno with hp | hl
        · exact if_neg hp
        · exact (if_congr Iff.rfl hl rfl).trans (ite_self none)
    | cycle w =>
      rcases cycleTransaction_cases w ⟨cfg, regs, mem, phase, latch, rest, returned⟩ with
        ⟨i, hdec, hc⟩ | ⟨e, hdec, hc⟩
      · refine .inl ⟨by simp, i, some .ok, ?_, hc⟩
        exact congrArg Except.toOption hdec
      · refine .inr (.inl ⟨by simp, congrArg Except.toOption hdec, w, hc.trans ?_⟩)
        have hdec : decode cfg w = .error e := hdec
        simp only [decodeTransaction, List.tail_cons, hdec]

/-- What the next step executes is well formed: it comes from a decode or from the latch. -/
theorem nextExecuted_wellFormed {s : State} (h : s.Wf) {i : Instr} (hi : nextExecuted s = some i) :
    i.wellFormed s.cfg = true := by
  obtain ⟨-, -, -, hlatch⟩ := h
  unfold nextExecuted at hi
  split at hi
  · next w _ _ =>
    cases hdec : decode s.cfg w with
    | ok j =>
      obtain rfl : j = i := by simpa [hdec, Except.toOption] using hi
      exact (decodedInstructionIsWellFormed _ _ _ hdec).1
    | error e => simp [hdec, Except.toOption] at hi
  · obtain ⟨-, hi⟩ := Option.ite_none_right_eq_some.mp hi
    simpa [hi] using hlatch
  · cases hi

/-- A decode touches neither registers nor memory. -/
theorem decodeTransaction_changesNothing (w : Nat) (s : State) :
    ChangesNothing s (decodeTransaction w s) := by
  rcases decodeTransaction_cases w s with ⟨_, -, h⟩ | ⟨_, -, h⟩ <;> rw [h] <;>
    exact ⟨rfl, rfl, rfl, rfl⟩

theorem decodeTransaction_returned_isSome (w : Nat) (s : State) :
    (decodeTransaction w s).returned.isSome = true := by
  rcases decodeTransaction_cases w s with ⟨_, -, h⟩ | ⟨_, -, h⟩ <;> rw [h] <;> rfl

/-- No meaning touches the configuration or the pending calls, and each returns a status. -/
theorem exec_frame {i : Instr} {s t : State} (ht : exec i s = .next t) :
    t.cfg = s.cfg ∧ t.calls = s.calls ∧ t.returned.isSome = true := by
  rcases exec_next ht with ⟨-, -, -, rfl⟩ | ⟨-, -, -, -, -, rfl⟩ | ⟨-, -, -, -, -, -, -, -, rfl⟩ <;>
    exact ⟨rfl, rfl, rfl⟩

/-- A register that is not the destination reads as before (10_state.md R26). -/
theorem exec_readReg {i : Instr} {s t : State} (ht : exec i s = .next t) {r : Nat}
    (hr : destination i ≠ some r) : readReg t r = readReg s r := by
  rcases exec_next ht with ⟨-, -, -, rfl⟩ | ⟨d, v, st, hd, -, rfl⟩ | ⟨-, -, -, -, -, -, -, -, rfl⟩
  · rfl
  · exact readReg_writeReg_ne (fun hrd => hr (hd.trans (congrArg some hrd.symm))) v s
  · rfl

/-- Only `store` writes memory (10_state.md R28). -/
theorem exec_mem {i : Instr} {s t : State} (ht : exec i s = .next t)
    (hi : ∀ addr src off, i ≠ .store addr src off) : t.mem = s.mem := by
  rcases exec_next ht with ⟨-, -, -, rfl⟩ | ⟨-, -, -, -, -, rfl⟩ | ⟨addr, src, off, -, -, hs, -⟩
  · rfl
  · rfl
  · exact absurd hs (hi addr src off)

/-- No meaning reads the status that an earlier transaction returned. -/
theorem exec_setReturned (i : Instr) (s : State) (r : Option Status) :
    exec i { s with returned := r } = exec i s := by
  cases i <;> rfl

/-! ## The obligations of one step -/

/-- Settles O51: each thing a step can do (`step_cases`) keeps the invariant; what is executed is
well formed (`nextExecuted_wellFormed`). -/
theorem stepKeepsWellFormed : Obligations.StepKeepsWellFormed := by
  intro s t h ht
  rcases step_cases s with ⟨-, -, hs⟩ | ⟨-, i, r, hi, hs⟩ | ⟨-, -, w, hs⟩ | ⟨-, -, hs⟩ <;>
    rw [hs] at ht
  · cases ht
    exact h
  · exact exec_wf (setDecoded_wf h (nextExecuted_wellFormed h hi) _ r) ht
  · cases ht
    exact decodeTransaction_wf (setCalls_wf h _) w
  · cases ht
    exact executeUnknown_wf (setCalls_wf h _)

/-- A step that executes `i` is `exec i`, with `i` in the latch and the oldest call taken. -/
theorem step_of_nextExecuted_some {s : State} {i : Instr} (hi : nextExecuted s = some i) :
    ∃ r, step s = exec i
      { s with calls := s.calls.tail, phase := .decoded, latch := some i, returned := r } := by
  rcases step_cases s with ⟨-, hno, -⟩ | ⟨-, j, r, hj, hs⟩ | ⟨-, hno, -⟩ | ⟨-, hno, -⟩
  case inr.inl =>
    obtain rfl : i = j := Option.some.inj (hi.symm.trans hj)
    exact ⟨r, hs⟩
  all_goals
    rw [hno] at hi
    cases hi

/-- A step that executes no instruction changes no register, no memory and no configuration, and
takes the oldest call. -/
theorem step_of_nextExecuted_none {s t : State} (ht : step s = .next t)
    (hno : nextExecuted s = none) : ChangesNothing { s with calls := s.calls.tail } t := by
  rcases step_cases s with ⟨hc, -, hs⟩ | ⟨-, i, r, hi, -⟩ | ⟨-, -, w, hs⟩ | ⟨-, -, hs⟩
  · rw [hs] at ht
    cases ht
    exact ⟨rfl, rfl, rfl, by rw [hc]; rfl⟩
  · rw [hno] at hi
    cases hi
  · rw [hs] at ht
    cases ht
    exact decodeTransaction_changesNothing w _
  · rw [hs] at ht
    cases ht
    exact ⟨rfl, rfl, rfl, rfl⟩

/-- A step keeps the configuration and takes the oldest call. -/
theorem step_cfg_calls {s t : State} (ht : step s = .next t) :
    t.cfg = s.cfg ∧ t.calls = s.calls.tail := by
  cases hi : nextExecuted s with
  | none =>
    obtain ⟨-, -, hcfg, hcalls⟩ := step_of_nextExecuted_none ht hi
    exact ⟨hcfg, hcalls⟩
  | some i =>
    obtain ⟨r, hs⟩ := step_of_nextExecuted_some hi
    obtain ⟨hcfg, hcalls, -⟩ := exec_frame (hs ▸ ht)
    exact ⟨hcfg, hcalls⟩

/-- With no call pending a step holds the state. -/
theorem step_of_calls_nil {s : State} (h : s.calls = []) : step s = .next s := by
  rw [step, h]

/-- A step that executes no `store` leaves memory. -/
theorem step_mem {s t : State} (ht : step s = .next t)
    (hno : ∀ addr src off, nextExecuted s ≠ some (.store addr src off)) : t.mem = s.mem := by
  cases hi : nextExecuted s with
  | none =>
    obtain ⟨-, hmem, -⟩ := step_of_nextExecuted_none ht hi
    exact hmem
  | some i =>
    obtain ⟨r, hs⟩ := step_of_nextExecuted_some hi
    have hmem := exec_mem (hs ▸ ht) fun addr src off h => hno addr src off (h ▸ hi)
    exact hmem

/-- A decode neither reads the registers nor writes them. -/
theorem decodeTransaction_setRegs (w : Nat) (s : State) (regs : List Nat) :
    decodeTransaction w { s with regs := regs } = { decodeTransaction w s with regs := regs } := by
  unfold decodeTransaction
  cases hdec : decode s.cfg w <;> rfl

/-- `store` alone has no destination. -/
theorem destination_eq_none_iff (i : Instr) :
    destination i = none ↔ ∃ addr src off, i = .store addr src off := by
  cases i <;> simp [destination]

/-- Settles O54, from the frame of `exec`, of the decode, and of a step that executes nothing. -/
theorem onlyDestinationIsWritten : Obligations.OnlyDestinationIsWritten :=
  ⟨fun _ _ _ _ ht hr => exec_readReg ht hr, destination_eq_none_iff,
    fun w s => (decodeTransaction_changesNothing w s).1, decodeTransaction_setRegs,
    fun _ _ ht hno => (step_of_nextExecuted_none ht hno).1⟩

/-- Outside memory every address reads as the fill byte. -/
theorem readByte_of_size_le {s : State} (h : s.Wf) {x : Nat} (hx : s.cfg.memorySize ≤ x) :
    readByte s.mem x = Config.fillByte := by
  obtain ⟨-, ⟨-, hbound⟩, -⟩ := h
  exact readByte_unlisted fun y hy => by have := hbound y hy; omega

/-- Settles O55: only `store` writes memory (`step_mem`), and since a step keeps the invariant,
nothing outside memory is listed before it or after it. -/
theorem onlyStoreWritesMemory : Obligations.OnlyStoreWritesMemory := by
  refine ⟨fun _ => rfl, fun s t ht hno x => by rw [step_mem ht hno], fun s t ht x hx h => ?_⟩
  obtain ⟨hcfg, -⟩ := step_cfg_calls ht
  rw [readByte_of_size_le h hx,
    readByte_of_size_le (stepKeepsWellFormed s t h ht) (by rwa [hcfg])]

/-- A step that takes a call returns a status. -/
theorem step_returned_isSome {s t : State} (hc : s.calls ≠ []) (ht : step s = .next t) :
    t.returned.isSome = true := by
  rcases step_cases s with ⟨hnil, -⟩ | ⟨-, i, r, -, hs⟩ | ⟨-, -, w, hs⟩ | ⟨-, -, hs⟩
  · exact absurd hnil hc
  · obtain ⟨-, -, hret⟩ := exec_frame (hs ▸ ht)
    exact hret
  · rw [hs] at ht; cases ht; exact decodeTransaction_returned_isSome _ _
  · rw [hs] at ht; cases ht; rfl

/-- A decode overwrites the returned status without reading it. -/
theorem decodeTransaction_setReturned (w : Nat) (s : State) (r : Option Status) :
    decodeTransaction w { s with returned := r } = decodeTransaction w s := by
  unfold decodeTransaction
  cases hdec : decode s.cfg w <;> rfl

/-- An execute does not read the returned status. -/
theorem executeTransaction_setReturned (s : State) (r : Option Status) :
    executeTransaction { s with returned := r } = executeTransaction s := by
  obtain ⟨cfg, regs, mem, phase, latch, calls, returned⟩ := s
  cases phase with
  | idle | executed => rfl
  | decoded =>
    cases latch with
    | none => rfl
    | some i => exact exec_setReturned i _ r

/-- No call reads the returned status. -/
theorem performCall_setReturned (c : Call) (s : State) (r : Option Status) :
    performCall c { s with returned := r } = performCall c s := by
  cases c with
  | decode w => exact congrArg Host.Outcome.next (decodeTransaction_setReturned w s r)
  | execute => exact executeTransaction_setReturned s r
  | cycle w => simp only [performCall, cycleTransaction, decodeTransaction_setReturned]

/-- Settles O57, from what each call returns and from `performCall_setReturned`. -/
theorem statusIsReturnedAndNeverRead : Obligations.StatusIsReturnedAndNeverRead := by
  refine fun s hc => ⟨fun t => step_returned_isSome hc, fun r => ?_⟩
  unfold step
  cases hcalls : s.calls with
  | nil => exact absurd hcalls hc
  | cons c rest => exact performCall_setReturned c { s with calls := rest } r

/-! ## Runs -/

/-- What every step keeps, every run keeps. -/
theorem runSteps_invariant {P : State → Prop} (hstep : ∀ s t, P s → step s = .next t → P t)
    {n : Nat} {s t : State} (h : P s) (ht : runSteps n s = .next t) : P t := by
  induction n generalizing s with
  | zero => cases ht; exact h
  | succ n ih =>
    obtain ⟨u, hu, hrun⟩ := runSteps_next ht
    exact ih (hstep s u h hu) hrun

/-- Settles O52: a construction meets the invariant, and every step keeps it and the
configuration. -/
theorem everyRunStaysWellFormed : Obligations.EveryRunStaysWellFormed := by
  intro p initRegs initMem s t calls n hs ht
  obtain ⟨hcfg, hwf, -⟩ := constructionLeavesLaunchState p initRegs initMem s hs
  refine runSteps_invariant (P := fun u => u.Wf ∧ u.cfg.toParams = p) ?_
    ⟨setCalls_wf hwf calls, hcfg⟩ ht
  rintro u v ⟨hu, hp⟩ huv
  obtain ⟨hcfg, -⟩ := step_cfg_calls huv
  exact ⟨stepKeepsWellFormed u v hu huv, by rw [hcfg, hp]⟩

/-- Settles O53, by induction on the number of steps. -/
theorem runKeepsConfigurationAndTakesCalls : Obligations.RunKeepsConfigurationAndTakesCalls := by
  refine ⟨fun n => ?_, fun n => ?_⟩
  · induction n with
    | zero => rintro s _ ⟨⟩; exact ⟨rfl, rfl⟩
    | succ n ih =>
      intro s t ht
      obtain ⟨u, hu, hrun⟩ := runSteps_next ht
      obtain ⟨hcfg, hcalls⟩ := step_cfg_calls hu
      obtain ⟨ihcfg, ihcalls⟩ := ih u t hrun
      exact ⟨ihcfg.trans hcfg, by rw [ihcalls, hcalls, List.drop_tail]⟩
  · induction n with
    | zero => exact fun s _ => rfl
    | succ n ih =>
      intro s hc
      rw [runSteps_succ, step_of_calls_nil hc]
      exact ih s hc

end Sys2Proof.Machine

/-! PROOFS. Memory access (20_memory.md): the bytes of a word, multi-byte reads and writes byte by
byte, the effective address, and what a load and a store do. -/

namespace Sys2Proof.Machine

/-! ## The bytes of a word -/

theorem byteOf_zero (v : Nat) : byteOf v 0 = BitVec.ofNat 8 v := by simp [byteOf]

/-- The higher bytes of a word are the bytes of the word shifted down by one. -/
theorem byteOf_succ (v k : Nat) : byteOf v (k + 1) = byteOf (v / 256) k := by
  rw [byteOf, byteOf, Nat.div_div_eq_div_mul, Nat.mul_add_one, pow_add, Nat.mul_comm (2 ^ (8 * k))]
  rfl

/-- A value of `n` bytes has no byte at place `n` or above. -/
theorem byteOf_eq_zero {v n k : Nat} (hv : v < 2 ^ (8 * n)) (hk : n ≤ k) : byteOf v k = 0 := by
  have hle : 2 ^ (8 * n) ≤ 2 ^ (8 * k) := Nat.pow_le_pow_right (by decide) (by omega)
  rw [byteOf, Nat.div_eq_of_lt (by omega)]
  rfl

/-- The low `n + 1` bytes of a value are its lowest byte and, above it, the next `n`. -/
theorem mod_succ_bytes (v n : Nat) :
    v % 2 ^ (8 * (n + 1)) = (byteOf v 0).toNat + 256 * (v / 256 % 2 ^ (8 * n)) := by
  rw [byteOf_zero, BitVec.toNat_ofNat, Nat.mul_add_one, Nat.add_comm (8 * n), pow_add, Nat.mod_mul]
  rfl

/-! ## Reads and writes of `n` bytes, byte by byte (20_memory.md R43) -/

/-- Byte `k` of a read is the byte at `a + k`, and nothing stands above the bytes read. -/
theorem byteOf_memRead (m : Memory) (a n k : Nat) :
    byteOf (memRead m a n) k = if k < n then readByte m (a + k) else 0 := by
  split
  case isTrue hk =>
    induction n generalizing a k with
    | zero => omega
    | succ n ih =>
      have hlow := (readByte m a).isLt
      cases k with
      | zero =>
        refine BitVec.eq_of_toNat_eq ?_
        rw [memRead_succ, byteOf_zero, BitVec.toNat_ofNat, Nat.add_zero a, Nat.add_mul_mod_self_left,
          Nat.mod_eq_of_lt hlow]
      | succ k =>
        have hdiv : memRead m a (n + 1) / 256 = memRead m (a + 1) n := by
          rw [memRead_succ]
          omega
        rw [byteOf_succ, hdiv, ih _ _ (by omega), Nat.add_right_comm, Nat.add_assoc]
  case isFalse hk => exact byteOf_eq_zero (memRead_lt m a n) (by omega)

/-- What a write puts at an address: the byte of the value that falls there, and the old byte outside
the `n` bytes written. -/
theorem readByte_memWrite {m : Memory} (h : m.wf) (a n v x : Nat) :
    readByte (memWrite m a n v) x =
      if a ≤ x ∧ x < a + n then byteOf v (x - a) else readByte m x := by
  induction n generalizing m a v with
  | zero => rw [memWrite_zero, if_neg (by omega)]
  | succ n ih =>
    rw [memWrite_succ, ih (writeByte_wf h _ _), readByte_writeByte h]
    rcases lt_trichotomy x a with hx | rfl | hx
    · rw [if_neg (by omega), if_neg (by omega), if_neg (by omega)]
    · rw [if_neg (by omega), if_pos rfl, if_pos (by omega), Nat.sub_self, byteOf_zero]
    · obtain ⟨k, rfl⟩ : ∃ k, x = a + (k + 1) := ⟨x - a - 1, by omega⟩
      by_cases hk : k < n
      · rw [if_pos (by omega), if_pos (by omega), Nat.add_sub_cancel_left, byteOf_succ]
        congr 1
        omega
      · rw [if_neg (by omega), if_neg (by omega), if_neg (by omega)]

/-- Memory that holds the bytes of `v` from `a` on reads there as the low `n` bytes of `v`. -/
theorem memRead_eq_mod {m : Memory} {a n v : Nat}
    (h : ∀ k, k < n → readByte m (a + k) = byteOf v k) : memRead m a n = v % 2 ^ (8 * n) := by
  induction n generalizing a v with
  | zero => simp [Nat.mod_one]
  | succ n ih =>
    have hhigh : memRead m (a + 1) n = v / 256 % 2 ^ (8 * n) := ih fun k hk => by
      rw [← byteOf_succ, ← h (k + 1) (by omega), Nat.add_assoc, Nat.add_comm 1]
    rw [memRead_succ, mod_succ_bytes, hhigh, ← h 0 (by omega), Nat.add_zero]

/-- Settles O19, from the byte-by-byte laws of reads (`byteOf_memRead`) and of writes
(`readByte_memWrite`). -/
theorem storedBytesAreLittleEndian : Obligations.StoredBytesAreLittleEndian := by
  intro m a n v h
  have hwritten : ∀ k, k < n → readByte (memWrite m a n v) (a + k) = byteOf v k := fun k hk => by
    rw [readByte_memWrite h, if_pos (by omega), Nat.add_sub_cancel_left]
  refine ⟨memRead_lt m a n, fun k hk => ?_, hwritten, fun x hx => ?_, memRead_eq_mod hwritten⟩
  · rw [byteOf_memRead, if_pos hk]
  · rw [readByte_memWrite h, if_neg (by omega)]

/-! ## The effective address (20_memory.md R46) -/

/-- The signed reading of a word differs from the word by nothing or by `2^r`. -/
theorem signed_emod (r v : Nat) : Word.signed r v % 2 ^ r = (v : Int) % 2 ^ r := by
  unfold Word.signed
  split
  · exact Int.sub_emod_right _ _
  · rfl

/-- The address is the register plus the signed offset, modulo the size of memory. -/
theorem effectiveAddress_signed (s : State) (base off : Nat) :
    (effectiveAddress s base off : Int) =
      ((readReg s base : Int) + Word.signed s.cfg.registerBits off) % 2 ^ s.cfg.registerBits := by
  rw [effectiveAddress, Word.trunc, Int.add_emod, signed_emod, ← Int.add_emod]
  push_cast
  rfl

/-- A field that is not empty is a slice of the word. -/
theorem field_eq_slice {w lo width : Nat} (h : 0 < width) :
    field w lo width = slice w (lo + width - 1) lo := by
  rw [field, slice, if_neg (by omega), show lo + width - 1 - lo + 1 = width by omega]

/-- The offset of a decoded `load` or `store` is the word's offset field, sign-extended: no other
decoder gives either. -/
theorem offset_of_decode {c : Config} {w x y off : Nat}
    (h : decode c w = .ok (.load x y off) ∨ decode c w = .ok (.store x y off)) :
    off = offsetOperand c w := by
  rcases h with h | h <;> obtain ⟨m, -, hm⟩ := decode_eq_ok_iff.mp h
  · obtain rfl : m = .load := by rw [← mnemonic_decoderOf m c w, hm]; rfl
    cases hm
    rfl
  · obtain rfl : m = .store := by rw [← mnemonic_decoderOf m c w, hm]; rfl
    cases hm
    rfl

/-- Settles O22: the signed offset is the offset mod `2^R` (`effectiveAddress_signed`), and the offset
comes from its field (`offset_of_decode`). -/
theorem effectiveAddressWraps : Obligations.EffectiveAddressWraps := by
  refine ⟨fun s base off =>
    ⟨rfl, effectiveAddress_signed s base off, effectiveAddress_lt s base off⟩,
    fun c w x y off h => ?_⟩
  obtain ⟨-, -, -, -, -, -, -, -, hpos, -⟩ := validConfigurationFitsFormats c
  rw [offset_of_decode h, offsetOperand, field_eq_slice hpos, Nat.zero_add]

/-! ## What a load and a store do (20_memory.md R47 to R50) -/

/-- The number of bytes an access at an address in memory moves: a register's, or as many as remain
before the end of memory. -/
def accessCount (c : Config) (ea : Nat) : Nat := min c.registerBytes (c.memorySize - ea)

/-- The status an access at an address in memory returns. -/
def accessStatus (c : Config) (ea : Nat) : Status :=
  if ea ≤ c.memorySize - c.registerBytes then .ok else .lastMemoryByte

theorem accessStatus_cases (c : Config) (ea : Nat) :
    accessStatus c ea = .ok ∨ accessStatus c ea = .lastMemoryByte := by
  unfold accessStatus
  split
  · exact .inl rfl
  · exact .inr rfl

theorem accessCount_of_full {c : Config} {ea : Nat} (h : ea ≤ c.memorySize - c.registerBytes) :
    accessCount c ea = c.registerBytes := by
  have := registerBytes_le_memorySize c
  exact Nat.min_eq_left (by omega)

/-- An address in memory is never out of memory: the access moves `accessCount` bytes. -/
theorem accessSize_of_lt {c : Config} {ea : Nat} (h : ea < c.memorySize) :
    accessSize c ea = .ok (accessCount c ea, accessStatus c ea) := by
  have := registerBytes_le_memorySize c
  rcases accessSize_cases c ea with ⟨hout, -⟩ | ⟨-, hpart, hs⟩ | ⟨-, hfull, hs⟩
  · omega
  · rw [hs, accessStatus, if_neg (by omega), accessCount, Nat.min_eq_right (by omega)]
  · rw [hs, accessStatus, if_pos hfull, accessCount_of_full hfull]

/-- `load` always ends, with the bytes it read in its destination (41_load_store.md R88). -/
theorem exec_load (dst base off : Nat) (s : State) :
    exec (.load dst base off) s =
      .next (endExecute (accessStatus s.cfg (effectiveAddress s base off))
        (writeReg dst (memRead s.mem (effectiveAddress s base off)
          (accessCount s.cfg (effectiveAddress s base off))) s)) := by
  simp only [exec, execLoad, accessSize_of_lt (effectiveAddress_lt s base off), returnStatus]

/-- `store` always ends, with the bytes that fit written (41_load_store.md R89). -/
theorem exec_store (addr src off : Nat) (s : State) :
    exec (.store addr src off) s =
      .next (endExecute (accessStatus s.cfg (effectiveAddress s addr off))
        (storeBytes (effectiveAddress s addr off)
          (accessCount s.cfg (effectiveAddress s addr off)) (readReg s src) s)) := by
  simp only [exec, execStore, accessSize_of_lt (effectiveAddress_lt s addr off), returnStatus]

/-- Settles O27: `exec_next` lists every status an instruction can return, and `exec_load` and
`exec_store` give the next state. -/
theorem outOfMemoryNeverOccurs : Obligations.OutOfMemoryNeverOccurs := by
  refine ⟨fun i s t ht => ?_, fun s x y off => ⟨⟨_, exec_load x y off s, ?_⟩,
    ⟨_, exec_store x y off s, ?_⟩⟩⟩
  · rcases exec_next ht with
      ⟨-, -, -, rfl⟩ | ⟨-, -, st, -, hst, rfl⟩ | ⟨-, -, -, -, st, -, -, hst, rfl⟩
    · simp
    · rcases hst with rfl | rfl <;> simp
    · rcases hst with rfl | rfl <;> simp
  all_goals simpa using accessStatus_cases s.cfg _

/-- A register holds the bytes of memory that an access reads, so the write to the register drops
none of them. -/
theorem memRead_accessCount_lt (c : Config) (m : Memory) (a ea : Nat) :
    memRead m a (accessCount c ea) < 2 ^ c.registerBits := by
  obtain ⟨-, -, hR, -⟩ := validConfigurationFitsFormats c
  have hcount : accessCount c ea ≤ c.registerBytes := Nat.min_le_left _ _
  exact (memRead_lt m a _).trans_le (Nat.pow_le_pow_right (by decide) (by omega))

theorem load_dst_lt {c : Config} {dst base off : Nat}
    (h : (Instr.load dst base off).wellFormed c = true) : dst < c.registerCount := by
  simp only [Instr.wellFormed, registerInRange, Bool.and_eq_true, decide_eq_true_iff] at h
  obtain ⟨⟨hdst, -⟩, -⟩ := h
  exact hdst

/-- What `load` does, byte by byte: the bytes read fill the low bytes of the destination, the others
are zero, and nothing else changes. -/
theorem load_effect {s : State} (h : s.Wf) {dst base off : Nat}
    (hi : (Instr.load dst base off).wellFormed s.cfg = true) :
    ∃ t, exec (.load dst base off) s = .next t ∧
      t.returned = some (accessStatus s.cfg (effectiveAddress s base off)) ∧
      (∀ k, byteOf (readReg t dst) k =
        if k < accessCount s.cfg (effectiveAddress s base off)
        then readByte s.mem (effectiveAddress s base off + k) else 0) ∧
      ChangesOnlyRegister dst s t := by
  obtain ⟨⟨hlen, -⟩, -⟩ := h
  refine ⟨_, exec_load dst base off s, rfl, fun k => ?_, fun i hid => ?_, fun _ => rfl, rfl, rfl⟩
  · rw [readReg_endExecute, readReg_writeReg_self (hlen ▸ load_dst_lt hi),
      Nat.mod_eq_of_lt (memRead_accessCount_lt _ _ _ _), byteOf_memRead]
  · rw [readReg_endExecute, readReg_writeReg_ne hid]

/-- What `store` does, byte by byte: the bytes that fit are written from the effective address on,
and every other byte stays. -/
theorem store_readByte {s t : State} (h : s.Wf) {addr src off : Nat}
    (ht : exec (.store addr src off) s = .next t) (x : Nat) :
    readByte t.mem x =
      if effectiveAddress s addr off ≤ x ∧ x < effectiveAddress s addr off +
          accessCount s.cfg (effectiveAddress s addr off)
      then byteOf (readReg s src) (x - effectiveAddress s addr off) else readByte s.mem x := by
  obtain ⟨-, ⟨hmem, -⟩, -⟩ := h
  rw [exec_store] at ht
  cases ht
  exact readByte_memWrite hmem _ _ _ _

theorem store_returned {s t : State} {addr src off : Nat}
    (ht : exec (.store addr src off) s = .next t) :
    t.returned = some (accessStatus s.cfg (effectiveAddress s addr off)) := by
  rw [exec_store] at ht
  cases ht
  rfl

/-- Settles O21: the loaded bytes (`load_effect`) are bytes of the memory the store left
(`store_readByte`), and the end of memory lies behind every byte of the full store. -/
theorem overlappingLoadSeesStoredBytes : Obligations.OverlappingLoadSeesStoredBytes := by
  refine ⟨fun m a n j v k h hk => ?_, ?_⟩
  · rw [byteOf_memRead, if_pos hk, readByte_memWrite h]
    by_cases hjk : j + k < n
    · rw [if_pos (by omega), if_pos hjk, Nat.add_assoc, Nat.add_sub_cancel_left]
    · rw [if_neg (by omega), if_neg hjk]
  · intro s t addr src off dst base off' j h _ hload rb size ea hfull ht _ hj hea
    obtain ⟨hcfg, -⟩ := exec_frame ht
    obtain ⟨u, hu, hret, hbytes, hframe⟩ := load_effect (exec_wf h ht) (hcfg ▸ hload)
    rw [hcfg, hea] at hret hbytes
    refine ⟨?_, u, hu, hret, fun k hk => ?_, hframe⟩
    · rw [store_returned ht, accessStatus, if_pos hfull]
    · have hsize : rb ≤ size := registerBytes_le_memorySize s.cfg
      have hcount : k < accessCount s.cfg (ea + j) ↔ ea + j + k < size := by
        simp only [accessCount, lt_min_iff]
        omega
      rw [hbytes k, store_readByte h ht, accessCount_of_full hfull]
      by_cases hjk : j + k < rb
      · rw [if_pos (hcount.mpr (by omega)), if_pos (by omega), if_pos hjk, Nat.add_assoc,
          Nat.add_sub_cancel_left]
      · have hout : ¬ (ea ≤ ea + j + k ∧ ea + j + k < ea + rb) := by omega
        rw [if_neg hjk, if_neg hout]
        exact if_congr hcount rfl rfl

end Sys2Proof.Machine

/-! PROOFS. Encoding (30_encoding.md): the fields of a word, the bits that a decoder reads, the
round trips of `encode` and `decode`, the bit ranges of the formats, the decode transaction on
words, and the pseudo-instructions. -/

namespace Sys2Proof

/-! ## Fields of a word -/

/-- The low `width + lo` bits of a word, shifted down by `lo`, are a field. -/
theorem mod_two_pow_div (w lo width : Nat) : w % 2 ^ (width + lo) / 2 ^ lo = field w lo width := by
  rw [pow_add, Nat.mod_mul_left_div_self, field]

/-- A field whose place is given by its two ends is the slice between them; of width 0, it is the
empty slice. -/
theorem field_eq_slice_of_add {w lo width hi : Nat} (h : lo + width = hi + 1) :
    field w lo width = slice w hi lo := by
  rcases Nat.eq_zero_or_pos width with rfl | hpos
  · rw [field_zero_width, slice, if_pos (by omega)]
  · rw [Machine.field_eq_slice hpos, show lo + width - 1 = hi by omega]

/-- A field reads nothing below its lowest bit. -/
theorem field_congr {w w' u lo : Nat} (h : w / 2 ^ u = w' / 2 ^ u) (hu : u ≤ lo) (width : Nat) :
    field w lo width = field w' lo width := by
  have hdiv : ∀ x : Nat, x / 2 ^ lo = x / 2 ^ u / 2 ^ (lo - u) := fun x => by
    rw [Nat.div_div_eq_div_mul, ← pow_add, Nat.add_sub_cancel' hu]
  rw [field, field, hdiv w, hdiv w', h]

/-- Settles O14: the mask of `width` ones is the remainder by `2^width`. -/
theorem fieldIsMaskedShift : Obligations.FieldIsMaskedShift := by
  refine fun w lo width => ⟨?_, Machine.field_eq_slice, field_zero_width w lo⟩
  rw [Nat.one_shiftLeft, Nat.and_two_pow_sub_one_eq_mod, Nat.shiftRight_eq_div_pow, field]

/-- The list gives the consecutive fields of `w` from bit `hi` downwards. -/
def FieldsBelow (w : Nat) : Nat → List (Nat × Nat) → Prop
  | _, [] => True
  | hi, (k, v) :: fs => field w (hi - k) k = v ∧ FieldsBelow w (hi - k) fs

@[simp] theorem FieldsBelow_nil (w hi : Nat) : FieldsBelow w hi [] := trivial

theorem FieldsBelow_cons (w hi k v : Nat) (fs : List (Nat × Nat)) :
    FieldsBelow w hi ((k, v) :: fs) ↔ field w (hi - k) k = v ∧ FieldsBelow w (hi - k) fs := Iff.rfl

/-- A list of `hi` bits gives the fields of `w` from bit `hi` downwards exactly when its values fit
their widths and its concatenation is the low `hi` bits of `w`. -/
theorem fieldsBelow_iff {w hi : Nat} {fs : List (Nat × Nat)} (h : (fs.map Prod.fst).sum = hi) :
    FieldsBelow w hi fs ↔ FieldsFit fs ∧ concatFields fs = w % 2 ^ hi := by
  induction fs generalizing hi with
  | nil => subst h; simp [Nat.mod_one]
  | cons f fs ih =>
    obtain ⟨k, v⟩ := f
    obtain rfl : k + (fs.map Prod.fst).sum = hi := h
    rw [FieldsBelow_cons, Nat.add_sub_cancel_left, ih rfl, FieldsFit_cons, concatFields_cons]
    generalize hr : (fs.map Prod.fst).sum = r
    have hmod : w % 2 ^ (k + r) % 2 ^ r = w % 2 ^ r := by rw [pow_add, Nat.mod_mul_left_mod]
    have hsplit := Nat.div_mod_unique (a := w % 2 ^ (k + r)) (d := v) (c := concatFields fs)
      (Nat.two_pow_pos r)
    rw [mod_two_pow_div, hmod, Nat.add_comm (concatFields fs), Nat.mul_comm (2 ^ r)] at hsplit
    constructor
    · rintro ⟨hv, hfit, hc⟩
      exact ⟨⟨hv ▸ field_lt w r k, hfit⟩, (hsplit.mp ⟨hv, hc.symm⟩).1⟩
    · rintro ⟨⟨-, hfit⟩, hcat⟩
      obtain ⟨hv, hc⟩ := hsplit.mpr ⟨hcat, hr ▸ concatFields_lt hfit⟩
      exact ⟨hv, hfit, hc.symm⟩

/-! ## Sign extension (30_encoding.md R76) -/

/-- What sign extension adds to a field lies above its bits. -/
theorem two_pow_sub_two_pow_dvd {r width : Nat} (h : width ≤ r) : 2 ^ width ∣ 2 ^ r - 2 ^ width :=
  Nat.dvd_sub (pow_dvd_pow 2 h) dvd_rfl

/-- A field is the low bits of its sign extension. -/
theorem signExtend_mod {r width f : Nat} (hw : 1 ≤ width) (hr : width ≤ r) (hf : f < 2 ^ width) :
    signExtend r width f % 2 ^ width = f := by
  obtain ⟨q, hq⟩ := two_pow_sub_two_pow_dvd hr
  rcases signExtend_cases hw hr hf with ⟨-, hext⟩ | ⟨-, hext⟩ <;> rw [hext]
  · exact Nat.mod_eq_of_lt hf
  · rw [hq, Nat.add_mul_mod_self_left, Nat.mod_eq_of_lt hf]

/-- A value of a signed field is the sign extension of its low bits. -/
theorem signExtend_mod_of_signedFieldValue {c : Config} {width v : Nat} (hw : 1 ≤ width)
    (hr : width ≤ c.registerBits) (h : signedFieldValue c width v = true) :
    signExtend c.registerBits width (v % 2 ^ width) = v := by
  have htwo : 2 ^ width = 2 * 2 ^ (width - 1) := by rw [← pow_succ', Nat.sub_add_cancel hw]
  have hle : 2 ^ width ≤ 2 ^ c.registerBits := Nat.pow_le_pow_right (by decide) hr
  simp only [signedFieldValue, Bool.or_eq_true, Bool.and_eq_true, decide_eq_true_iff] at h
  rcases h with hlow | ⟨hhigh, hlt⟩
  · rw [Nat.mod_eq_of_lt (by omega)]
    rcases signExtend_cases hw hr (f := v) (by omega) with ⟨-, hext⟩ | ⟨hge, -⟩
    · exact hext
    · omega
  · obtain ⟨f, rfl⟩ : ∃ f, v = f + (2 ^ c.registerBits - 2 ^ width) :=
      Nat.exists_eq_add_of_le' (by omega)
    obtain ⟨q, hq⟩ := two_pow_sub_two_pow_dvd hr
    have hmod : (f + (2 ^ c.registerBits - 2 ^ width)) % 2 ^ width = f := by
      rw [hq, Nat.add_mul_mod_self_left, Nat.mod_eq_of_lt (by omega)]
    rw [hmod]
    rcases signExtend_cases hw hr (f := f) (by omega) with ⟨hlt', -⟩ | ⟨-, hext⟩
    · omega
    · exact hext

/-- The sign extension of `f` is the one value of a signed field whose low bits are `f`. -/
theorem signExtend_eq_iff {c : Config} {width v f : Nat} (hw : 1 ≤ width)
    (hr : width ≤ c.registerBits) (hf : f < 2 ^ width) (h : signedFieldValue c width v = true) :
    signExtend c.registerBits width f = v ↔ f = v % 2 ^ width := by
  constructor
  · rintro rfl
    exact (signExtend_mod hw hr hf).symm
  · rintro rfl
    exact signExtend_mod_of_signedFieldValue hw hr h

theorem field_zero_eq_mod (w width : Nat) : field w 0 width = w % 2 ^ width := by simp [field]

/-! ## The fields of each format (30_encoding.md R66 to R71) -/

theorem fieldsBelow_twoRegisters (c : Config) (w a b v : Nat) :
    FieldsBelow w c.bitsBelowOpcode
        [(c.bitsForRegister, a), (c.bitsForRegister, b), (c.offsetBits, v)] ↔
      firstRegister c w = a ∧ secondRegister c w = b ∧ field w 0 c.offsetBits = v := by
  have hsecond : c.bitsBelowOpcode - c.bitsForRegister - c.bitsForRegister =
      c.bitsBelowOpcode - 2 * c.bitsForRegister := by omega
  have hlow : c.bitsBelowOpcode - 2 * c.bitsForRegister - c.offsetBits = 0 := Nat.sub_self _
  simp only [FieldsBelow_cons, FieldsBelow_nil, and_true, hsecond, hlow]
  exact Iff.rfl

theorem fieldsBelow_loadImmediate (c : Config) (w d u x v : Nat) :
    FieldsBelow w c.bitsBelowOpcode
        [(c.bitsForRegister, d), (1, u), (c.halfBits, x), (c.loadImmUnusedBits, v)] ↔
      firstRegister c w = d ∧ field w (c.bitsBelowOpcode - c.bitsForRegister - 1) 1 = u ∧
        field w c.loadImmUnusedBits c.halfBits = x ∧ field w 0 c.loadImmUnusedBits = v := by
  have hlow : c.bitsBelowOpcode - c.bitsForRegister - 1 - c.halfBits - c.loadImmUnusedBits = 0 :=
    Nat.sub_self _
  simp only [FieldsBelow_cons, FieldsBelow_nil, and_true, hlow]
  exact Iff.rfl

theorem fieldsBelow_arith (c : Config) (w u d v : Nat) :
    FieldsBelow w c.bitsBelowOpcode [(1, u), (c.bitsForRegister, d), (c.operandBits, v)] ↔
      field w (c.bitsBelowOpcode - 1) 1 = u ∧ arithDestination c w = d ∧
        field w 0 c.operandBits = v := by
  have hlow : c.bitsBelowOpcode - 1 - c.bitsForRegister - c.operandBits = 0 := Nat.sub_self _
  simp only [FieldsBelow_cons, FieldsBelow_nil, and_true, hlow]
  exact Iff.rfl

theorem fieldsBelow_not (c : Config) (w d v : Nat) :
    FieldsBelow w c.bitsBelowOpcode
        [(c.bitsForRegister, d), (c.bitsBelowOpcode - c.bitsForRegister, v)] ↔
      firstRegister c w = d ∧ field w 0 (c.bitsBelowOpcode - c.bitsForRegister) = v := by
  simp only [FieldsBelow_cons, FieldsBelow_nil, and_true, Nat.sub_self]
  exact Iff.rfl

/-- A signed field is neither empty nor wider than a word. -/
theorem signedField_widths (c : Config) :
    (1 ≤ c.offsetBits ∧ c.offsetBits ≤ c.registerBits) ∧
      1 ≤ c.operandBits ∧ c.operandBits ≤ c.registerBits := by
  obtain ⟨-, -, -, -, -, -, hR, hoff, hoff1, hopnd, hopnd1, -⟩ := validConfigurationFitsFormats c
  omega

/-- The decoder reads a well-formed offset exactly when its low bits stand in the offset field. -/
theorem offsetOperand_eq_iff {c : Config} {off : Nat}
    (h : signedFieldValue c c.offsetBits off = true) (w : Nat) :
    offsetOperand c w = off ↔ field w 0 c.offsetBits = off % 2 ^ c.offsetBits := by
  obtain ⟨⟨h1, hR⟩, -⟩ := signedField_widths c
  exact signExtend_eq_iff h1 hR (field_lt _ _ _) h

/-- The arithmetic/shift fields of a well-formed operand are those of a word exactly when the
decoder reads them there: the bit `isImmediate` tells the two forms apart. -/
theorem fieldsBelow_arithFields {c : Config} {o : Operand} (h : o.wellFormed c = true)
    (w ds : Nat) :
    FieldsBelow w c.bitsBelowOpcode (arithFields c ds o) ↔
      arithDestination c w = ds ∧ arithOperand c w = o := by
  obtain ⟨-, h1, hR⟩ := signedField_widths c
  have hbit := field_lt w (c.bitsBelowOpcode - 1) 1
  cases o with
  | imm v =>
    rw [arithFields, fieldsBelow_arith, arithOperand,
      ← signExtend_eq_iff h1 hR (field_lt w 0 c.operandBits) h]
    by_cases himm : field w (c.bitsBelowOpcode - 1) 1 = 1 <;> simp [himm]
  | reg k =>
    rw [arithFields, fieldsBelow_arith, arithOperand]
    by_cases himm : field w (c.bitsBelowOpcode - 1) 1 = 1
    · simp [himm]
    · simp [show field w (c.bitsBelowOpcode - 1) 1 = 0 by omega]

/-- A bit as the decoder of `load_immediate` reads it, and as its encoder writes it. -/
theorem bit_eq_toNat_iff {b : Nat} (h : b < 2 ^ 1) (u : Bool) : b = u.toNat ↔ (b == 1) = u := by
  cases u with
  | false => simp; omega
  | true => simp

/-! ## The round trips -/

/-- The operand fields of a well-formed instruction are those of a word exactly when the decoder of
its mnemonic gives the instruction, and the bits that the decoder does not read are 0. -/
theorem fieldsBelow_operandFields {c : Config} {i : Instr} (h : i.wellFormed c = true) (w : Nat) :
    FieldsBelow w c.bitsBelowOpcode (operandFields c i) ↔
      decoderOf i.mnemonic c w = i ∧ w % 2 ^ unusedBits c i.mnemonic = 0 := by
  cases i with
  | load dst base off =>
    have hoff := offsetOperand_eq_iff (Bool.and_eq_true_iff.mp h).2 w
    simp [operandFields, fieldsBelow_twoRegisters, ← hoff, Instr.mnemonic, decoderOf, decodeLoad,
      unusedBits, Nat.mod_one]
  | store addr src off =>
    have hoff := offsetOperand_eq_iff (Bool.and_eq_true_iff.mp h).2 w
    simp [operandFields, fieldsBelow_twoRegisters, ← hoff, Instr.mnemonic, decoderOf, decodeStore,
      unusedBits, Nat.mod_one]
  | loadImmediate dst isUpper data =>
    simp [operandFields, fieldsBelow_loadImmediate, bit_eq_toNat_iff (field_lt _ _ 1),
      Instr.mnemonic, decoderOf, decodeLoadImmediate, unusedBits, field_zero_eq_mod, and_assoc]
  | add ds o | sub ds o | mul ds o | shr ds o | shl ds o =>
    have ho := fieldsBelow_arithFields (Bool.and_eq_true_iff.mp h).2 w ds
    simp [operandFields, ho, Instr.mnemonic, decoderOf, decodeArith, unusedBits, Nat.mod_one]
  | and dst src | or dst src | xor dst src =>
    simp [operandFields, fieldsBelow_twoRegisters, Instr.mnemonic, decoderOf, decodeBitwise,
      unusedBits, field_zero_eq_mod, and_assoc]
  | not ds =>
    simp [operandFields, fieldsBelow_not, Instr.mnemonic, decoderOf, decodeNot, unusedBits,
      field_zero_eq_mod]

/-- An opcode index is registered for the one mnemonic that has it as its opcode. -/
theorem registrationOrder_eq_some_iff {k : Nat} {m : Mnemonic} :
    registrationOrder[k]? = some m ↔ k = opcodeOf m := by
  constructor
  · intro h
    obtain ⟨hk, rfl⟩ := List.getElem?_eq_some_iff.mp h
    exact (List.Nodup.idxOf_getElem (by decide) k hk).symm
  · rintro rfl
    exact registrationOrder_opcodeOf m

/-- Decoding gives `i` when the opcode index is that of `i` and so is what its decoder reads. -/
theorem decode_eq_ok_iff_opcodeOf {c : Config} {w : Nat} {i : Instr} :
    decode c w = .ok i ↔ opcodeIndex c w = opcodeOf i.mnemonic ∧ decoderOf i.mnemonic c w = i := by
  rw [decode_eq_ok_iff]
  constructor
  · rintro ⟨m, hm, rfl⟩
    rw [mnemonic_decoderOf]
    exact ⟨registrationOrder_eq_some_iff.mp hm, rfl⟩
  · rintro ⟨hop, hi⟩
    exact ⟨_, registrationOrder_eq_some_iff.mpr hop, hi⟩

/-- The encoding of a well-formed instruction is the word that decodes to it with its unused bits 0:
both say that the fields of the encoding are those of the word (`fieldsBelow_iff`). -/
theorem encode_eq_mod_iff {c : Config} {i : Instr} (h : i.wellFormed c = true) (w : Nat) :
    encode c i = w % 2 ^ c.registerBits ↔
      decode c w = .ok i ∧ w % 2 ^ unusedBits c i.mnemonic = 0 := by
  obtain ⟨-, -, -, -, -, -, hR, -⟩ := validConfigurationFitsFormats c
  obtain ⟨hfit, hsum⟩ := operandFields_fit h
  have hwidth : (((c.bitsForOpcode, opcodeOf i.mnemonic) :: operandFields c i).map Prod.fst).sum =
      c.registerBits := by rw [List.map_cons, List.sum_cons, hsum, hR]
  have hall : FieldsFit ((c.bitsForOpcode, opcodeOf i.mnemonic) :: operandFields c i) :=
    (FieldsFit_cons _ _).mpr ⟨opcodeOf_lt c _, hfit⟩
  have hop : field w c.bitsBelowOpcode c.bitsForOpcode = opcodeIndex c w := rfl
  have hfields := fieldsBelow_iff (w := w) hwidth
  rw [FieldsBelow_cons, show c.registerBits - c.bitsForOpcode = c.bitsBelowOpcode from rfl, hop,
    fieldsBelow_operandFields h] at hfields
  rw [decode_eq_ok_iff_opcodeOf, and_assoc, hfields, encode]
  exact (and_iff_right hall).symm

/-- Settles O8: the encoding is a word of `R` bits, and it is its own encoding. -/
theorem decodeOfEncodeIsIdentity : Obligations.DecodeOfEncodeIsIdentity := by
  intro c i h
  obtain ⟨hlt, -⟩ := encode_opcodeField i c h
  exact ((encode_eq_mod_iff h _).mp (Nat.mod_eq_of_lt hlt).symm).1

/-! ## Unused bits (30_encoding.md R74, R75) -/

/-- The unused bits lie below the opcode. -/
theorem unusedBits_le (c : Config) (m : Mnemonic) : unusedBits c m ≤ c.bitsBelowOpcode := by
  cases m with
  | load | store | add | sub | mul | shr | shl => exact Nat.zero_le _
  | loadImmediate | and | or | xor | not =>
    simp only [unusedBits, Params.loadImmUnusedBits, Params.offsetBits]
    omega

/-- A decoder reads nothing of the bits that `unusedBits` counts for it. -/
theorem decoderOf_congr {c : Config} {m : Mnemonic} {w w' : Nat}
    (h : w / 2 ^ unusedBits c m = w' / 2 ^ unusedBits c m) :
    decoderOf m c w' = decoderOf m c w := by
  have hfield : ∀ {lo k : Nat}, unusedBits c m ≤ lo → field w' lo k = field w lo k :=
    fun hlo => (field_congr h hlo _).symm
  cases m with
  | load | store | add | sub | mul | shr | shl =>
    obtain rfl : w = w' := by simpa [unusedBits] using h
    rfl
  | loadImmediate =>
    have hbit : c.loadImmUnusedBits ≤ c.bitsBelowOpcode - c.bitsForRegister - 1 := Nat.sub_le _ _
    have hfirst : firstRegister c w' = firstRegister c w := hfield (hbit.trans (Nat.sub_le _ _))
    have hdata : field w' c.loadImmUnusedBits c.halfBits = field w c.loadImmUnusedBits c.halfBits :=
      hfield le_rfl
    simp only [decoderOf, decodeLoadImmediate, hfirst, hfield hbit, hdata]
  | and | or | xor =>
    have hle : c.offsetBits ≤ c.bitsBelowOpcode - c.bitsForRegister := by
      simp only [Params.offsetBits]; omega
    have hfirst : firstRegister c w' = firstRegister c w := hfield hle
    have hsecond : secondRegister c w' = secondRegister c w := hfield le_rfl
    simp only [decoderOf, decodeBitwise, hfirst, hsecond]
  | not =>
    have hfirst : firstRegister c w' = firstRegister c w := hfield le_rfl
    simp only [decoderOf, decodeNot, hfirst]

/-- Settles O12: neither the opcode index nor the decoder reads the unused bits. -/
theorem unusedBitsAreIgnored : Obligations.UnusedBitsAreIgnored := by
  intro c w w' m hm h
  have hop : opcodeIndex c w' = opcodeIndex c w :=
    (field_congr h (unusedBits_le c m) c.bitsForOpcode).symm
  simp only [decode, hop, hm, decoderOf_congr h]

/-- Settles O9: the word with its unused bits cleared decodes alike (`unusedBitsAreIgnored`), so
that it is the encoding (`encode_eq_mod_iff`). -/
theorem encodeOfDecodeClearsUnusedBits : Obligations.EncodeOfDecodeClearsUnusedBits := by
  intro c w i hw hdec
  obtain ⟨hwf, hm⟩ := decodedInstructionIsWellFormed c w i hdec
  generalize hu : unusedBits c i.mnemonic = u
  have hclear : w - w % 2 ^ u = w / 2 ^ u * 2 ^ u := Nat.div_mul_self_eq_mod_sub_self.symm
  have hdiv : w / 2 ^ u = (w - w % 2 ^ u) / 2 ^ u := by
    rw [hclear, Nat.mul_div_cancel _ (Nat.two_pow_pos u)]
  have hdec' : decode c (w - w % 2 ^ u) = .ok i :=
    (unusedBitsAreIgnored c w _ i.mnemonic hm (hu ▸ hdiv)).trans hdec
  have henc := (encode_eq_mod_iff hwf (w - w % 2 ^ u)).mpr
    ⟨hdec', by rw [hu, hclear, Nat.mul_mod_left]⟩
  rw [henc, Nat.mod_eq_of_lt ((Nat.sub_le _ _).trans_lt hw)]

/-! ## The opcode field (30_encoding.md R64) -/

/-- The opcode mask cuts the opcode index out of a word, in its place. -/
theorem and_opcodeMask (c : Config) (w : Nat) :
    w &&& c.opcodeMask = opcodeIndex c w <<< c.bitsBelowOpcode := by
  obtain ⟨-, -, -, -, -, -, hR, -⟩ := validConfigurationFitsFormats c
  rw [Params.opcodeMask, trunc_allOnes_shiftLeft (by omega), Word.allOnes,
    show c.registerBits - c.bitsBelowOpcode = c.bitsForOpcode by omega]
  refine Nat.eq_of_testBit_eq fun i => ?_
  simp only [opcodeIndex, field, Nat.testBit_and, Nat.testBit_shiftLeft,
    Nat.testBit_two_pow_sub_one, Nat.testBit_mod_two_pow, Nat.testBit_div_two_pow]
  by_cases hi : c.bitsBelowOpcode ≤ i
  · simp [hi, Bool.and_comm]
  · simp [hi]

/-- The opcode index is the slice at the top of a word. -/
theorem opcodeIndex_eq_slice (c : Config) (w : Nat) :
    opcodeIndex c w = slice w (c.registerBits - 1) (c.registerBits - c.bitsForOpcode) := by
  obtain ⟨-, -, -, -, -, -, hR, -⟩ := validConfigurationFitsFormats c
  have hO := four_le_bitsForOpcode c
  rw [opcodeIndex, show c.registerBits - c.bitsForOpcode = c.bitsBelowOpcode from rfl]
  exact field_eq_slice_of_add (by omega)

/-- The opcode index of the default configuration is the top hexadecimal digit. -/
theorem opcodeIndex_default (w : Nat) : opcodeIndex defaultConfig w = slice w 15 12 :=
  opcodeIndex_eq_slice defaultConfig w

/-- Settles O3, from `opcodeIndex_eq_slice` and `and_opcodeMask`. -/
theorem opcodeMaskSelectsOpcodeField : Obligations.OpcodeMaskSelectsOpcodeField := by
  refine ⟨fun c w _ => ⟨opcodeIndex_eq_slice c w, and_opcodeMask c w⟩, fun w _ => ?_⟩
  have hmask : defaultConfig.opcodeMask = 0xF000 := by decide
  exact ⟨opcodeIndex_default w, by rw [hmask]⟩

/-! ## The signed reading of a sign-extended field (30_encoding.md R76) -/

/-- The signed reading of a word, by the half of the range it lies in. -/
theorem signed_cases {r v : Nat} (hr : 1 ≤ r) (hv : v < 2 ^ r) :
    (v < 2 ^ (r - 1) ∧ Word.signed r v = v) ∨
    (2 ^ (r - 1) ≤ v ∧ Word.signed r v = (v : Int) - 2 ^ r) := by
  by_cases htop : 2 ^ (r - 1) ≤ v
  · exact .inr ⟨htop, if_pos ((testBit_top_iff hr hv).mpr htop)⟩
  · exact .inl ⟨by omega, if_neg (mt (testBit_top_iff hr hv).mp htop)⟩

/-- A sign-extended field in the low half of its range reads as the field, one in the high half as
the field minus `2^width`; both are words. -/
theorem signed_signExtend_cases {r width f : Nat} (hw : 1 ≤ width) (hr : width ≤ r)
    (hf : f < 2 ^ width) :
    signExtend r width f < 2 ^ r ∧
    ((f < 2 ^ (width - 1) ∧ Word.signed r (signExtend r width f) = f) ∨
      (2 ^ (width - 1) ≤ f ∧ Word.signed r (signExtend r width f) = (f : Int) - 2 ^ width)) := by
  have hwidth : 2 ^ width = 2 * 2 ^ (width - 1) := by rw [← pow_succ', Nat.sub_add_cancel hw]
  have hword : 2 ^ r = 2 * 2 ^ (r - 1) := by rw [← pow_succ', Nat.sub_add_cancel (hw.trans hr)]
  have hle : 2 ^ (width - 1) ≤ 2 ^ (r - 1) := Nat.pow_le_pow_right (by decide) (by omega)
  have hlt : signExtend r width f < 2 ^ r := by
    rcases signExtend_cases hw hr hf with ⟨-, hext⟩ | ⟨-, hext⟩ <;> omega
  refine ⟨hlt, ?_⟩
  rcases signExtend_cases hw hr hf with ⟨hlow, hext⟩ | ⟨hhigh, hext⟩ <;>
    rcases signed_cases (hw.trans hr) hlt with ⟨hval, hsig⟩ | ⟨hval, hsig⟩
  · exact .inl ⟨hlow, by rw [hsig, hext]⟩
  · omega
  · omega
  · refine .inr ⟨hhigh, ?_⟩
    rw [hsig, hext, Nat.cast_add, Nat.cast_sub (by omega)]
    push_cast
    ring

/-- The second operand of a decoded arithmetic/shift instruction is the one that the format's
decoder reads. -/
theorem arithOperand_of_decode {c : Config} {w x : Nat} {o : Operand}
    (h : decode c w = .ok (.add x o) ∨ decode c w = .ok (.sub x o) ∨ decode c w = .ok (.mul x o) ∨
      decode c w = .ok (.shr x o) ∨ decode c w = .ok (.shl x o)) : arithOperand c w = o := by
  rcases h with h | h | h | h | h <;>
    (obtain ⟨-, hread⟩ := decode_eq_ok_iff_opcodeOf.mp h; cases hread; rfl)

/-- An immediate is the operand field, sign-extended. -/
theorem eq_signExtend_of_arithOperand_eq_imm {c : Config} {w v : Nat}
    (h : arithOperand c w = .imm v) :
    v = signExtend c.registerBits c.operandBits (w % 2 ^ c.operandBits) := by
  rw [arithOperand, field_zero_eq_mod] at h
  split at h
  · exact (Operand.imm.inj h).symm
  · cases h

/-- Settles O13: the word and its signed reading by the halves of the field's range
(`signed_signExtend_cases`), and the two operands that a decoder extends. -/
theorem signExtensionIsTwosComplement : Obligations.SignExtensionIsTwosComplement := by
  refine ⟨fun r width f hw hr hf => ?_, fun c w x y v => ⟨fun h => ?_, fun h => ?_⟩, by decide,
    by decide⟩
  · have htop := testBit_top_iff hw hf
    have htwo : (2 : Int) ^ width = 2 * 2 ^ (width - 1) := by
      rw [← pow_succ', Nat.sub_add_cancel hw]
    have hcast : ((2 ^ (width - 1) : Nat) : Int) = 2 ^ (width - 1) := by push_cast; rfl
    have hfwidth : (f : Int) < 2 ^ width := by exact_mod_cast hf
    obtain ⟨hlt, ⟨hlow, hsig⟩ | ⟨hhigh, hsig⟩⟩ := signed_signExtend_cases hw hr hf
    · have hbit : f.testBit (width - 1) = false := by
        rw [← Bool.not_eq_true, htop]; omega
      refine ⟨hlt, by simp [hbit], fun _ => ⟨by simp [signExtend, hbit], hsig⟩, ?_, ?_⟩ <;>
        rw [hsig] <;> omega
    · have hbit := htop.mpr hhigh
      refine ⟨hlt, fun _ => ⟨if_pos hbit, hsig⟩, by simp [hbit], ?_, ?_⟩ <;>
        rw [hsig] <;> omega
  · rw [← field_zero_eq_mod]
    exact Machine.offset_of_decode h
  · exact eq_signExtend_of_arithOperand_eq_imm (arithOperand_of_decode h)

/-! ## The bit ranges of the formats (30_encoding.md R66 to R72, R74) -/

theorem firstRegister_eq_slice (c : Config) (w : Nat) :
    firstRegister c w =
      slice w (c.bitsBelowOpcode - 1) (c.bitsBelowOpcode - c.bitsForRegister) := by
  obtain ⟨-, -, -, -, -, -, -, hoff, h1, -⟩ := validConfigurationFitsFormats c
  exact field_eq_slice_of_add (by omega)

theorem secondRegister_eq_slice (c : Config) (w : Nat) :
    secondRegister c w = slice w (c.bitsBelowOpcode - c.bitsForRegister - 1)
      (c.bitsBelowOpcode - 2 * c.bitsForRegister) := by
  obtain ⟨-, -, -, -, -, -, -, hoff, h1, -⟩ := validConfigurationFitsFormats c
  exact field_eq_slice_of_add (by omega)

theorem offsetOperand_eq_slice (c : Config) (w : Nat) :
    offsetOperand c w =
      signExtend c.registerBits c.offsetBits (slice w (c.offsetBits - 1) 0) := by
  obtain ⟨⟨h1, -⟩, -⟩ := signedField_widths c
  rw [offsetOperand, field_eq_slice_of_add (hi := c.offsetBits - 1) (by omega)]

theorem arithDestination_eq_slice (c : Config) (w : Nat) :
    arithDestination c w =
      slice w (c.bitsBelowOpcode - 2) (c.bitsBelowOpcode - 1 - c.bitsForRegister) := by
  obtain ⟨-, -, -, -, -, -, -, -, -, hopnd, h1, -⟩ := validConfigurationFitsFormats c
  exact field_eq_slice_of_add (by omega)

/-- A single bit, as a slice. -/
theorem field_one_eq_slice (w lo : Nat) : field w lo 1 = slice w lo lo :=
  field_eq_slice_of_add rfl

theorem arithOperand_eq_slice (c : Config) (w : Nat) :
    arithOperand c w =
      if slice w (c.bitsBelowOpcode - 1) (c.bitsBelowOpcode - 1) = 1 then
        .imm (signExtend c.registerBits c.operandBits (slice w (c.operandBits - 1) 0))
      else .reg (slice w (c.operandBits - 1) 0) := by
  obtain ⟨-, h1, -⟩ := signedField_widths c
  rw [arithOperand, field_one_eq_slice, field_eq_slice_of_add (hi := c.operandBits - 1) (by omega)]

theorem loadImmediateData_eq_slice (c : Config) (w : Nat) :
    field w c.loadImmUnusedBits c.halfBits =
      slice w (c.bitsBelowOpcode - c.bitsForRegister - 2) c.loadImmUnusedBits := by
  obtain ⟨h16, -, -, hhalf, -, -, -, -, -, -, -, himm, -⟩ := validConfigurationFitsFormats c
  exact field_eq_slice_of_add (by omega)

/-- Settles O15: every operand that a decoder reads is a slice of the word. -/
theorem decodersReadTheirFields : Obligations.DecodersReadTheirFields := by
  intro c w
  simp only [decoderOf, decodeLoad, decodeStore, decodeLoadImmediate, decodeArith, decodeBitwise,
    decodeNot, firstRegister_eq_slice, secondRegister_eq_slice, offsetOperand_eq_slice,
    arithDestination_eq_slice, arithOperand_eq_slice, field_one_eq_slice,
    loadImmediateData_eq_slice, and_self]

/-- A word with the opcode index of `m` decodes by the decoder of `m`. -/
theorem decode_of_opcodeIndex {c : Config} {w : Nat} {m : Mnemonic}
    (h : opcodeIndex c w = opcodeOf m) : decode c w = .ok (decoderOf m c w) :=
  decode_eq_ok_iff.mpr ⟨m, registrationOrder_eq_some_iff.mpr h, rfl⟩

/-- Past the last registered opcode a word decodes to nothing. -/
theorem decode_of_unregistered {c : Config} {w : Nat} (h : 12 ≤ opcodeIndex c w) :
    decode c w = .error (.unknownInstruction (opcodeIndex c w)) := by
  have hnone : registrationOrder[opcodeIndex c w]? = none := List.getElem?_eq_none h
  simp only [decode, hnone]

/-- Settles O16: the decoders of the default configuration (`decodersReadTheirFields`), each at its
opcode index. -/
theorem defaultFieldPositions : Obligations.DefaultFieldPositions := by
  intro w _ off opnd
  obtain ⟨hload, hstore, himm, hadd, hsub, hmul, hshr, hshl, hand, hor, hxor, hnot⟩ :=
    decodersReadTheirFields defaultConfig w
  have hdec : ∀ m i, decoderOf m defaultConfig w = i → slice w 15 12 = opcodeOf m →
      decode defaultConfig w = .ok i := by
    rintro m _ rfl h
    exact decode_of_opcodeIndex ((opcodeIndex_default w).trans h)
  refine ⟨hdec .load _ hload, hdec .store _ hstore, hdec .loadImmediate _ himm, hdec .add _ hadd,
    hdec .sub _ hsub, hdec .mul _ hmul, hdec .shr _ hshr, hdec .shl _ hshl, hdec .and _ hand,
    hdec .or _ hor, hdec .xor _ hxor, hdec .not _ hnot, fun h => ?_⟩
  rw [← opcodeIndex_default] at h ⊢
  exact decode_of_unregistered h

end Sys2Proof

namespace Sys2Proof.Machine

/-! ## The decode transaction (30_encoding.md R79, R80, R82) -/

theorem decodeTransaction_of_ok {s : State} {w : Nat} {i : Instr} (h : decode s.cfg w = .ok i) :
    decodeTransaction w s =
      { s with phase := .decoded, latch := some i, returned := some .ok } := by
  simp only [decodeTransaction, h]

theorem decodeTransaction_of_error {s : State} {w : Nat} {e : DecodeError}
    (h : decode s.cfg w = .error e) :
    decodeTransaction w s =
      { s with phase := .idle, latch := none, returned := some .decodeUnknown } := by
  simp only [decodeTransaction, h]

/-- Settles O11, from `decode_of_unregistered`. -/
theorem unregisteredOpcodeIsRejected : Obligations.UnregisteredOpcodeIsRejected := by
  intro s w h
  have hdec := decode_of_unregistered h
  refine ⟨hdec, ?_, ?_, ?_, decodeTransaction_changesNothing w s⟩ <;>
    rw [decodeTransaction_of_error hdec]

/-- Settles O45: the instruction is that of the registered decoder, a function of the configuration
and the word. -/
theorem registeredDecoderNeverFails : Obligations.RegisteredDecoderNeverFails := by
  rintro s s' w hcfg ⟨m, hm⟩
  have hdec : decode s.cfg w = .ok (decoderOf m s.cfg w) := decode_eq_ok_iff.mpr ⟨m, hm, rfl⟩
  have hdec' : decode s'.cfg w = .ok (decoderOf m s.cfg w) := by rw [← hcfg, hdec]
  refine ⟨_, hdec, ?_, ?_, ?_, decodeTransaction_changesNothing w s⟩
  · rw [decodeTransaction_of_ok hdec]
  · rw [decodeTransaction_of_ok hdec']
  · rw [decodeTransaction_of_ok hdec]

/-! ## The pseudo-instructions (30_encoding.md R86) -/

theorem exec_or (dst src : Nat) (s : State) : exec (.or dst src) s =
    .next (endExecute .ok (writeReg dst (readReg s dst ||| readReg s src) s)) := rfl

theorem exec_xor (dst src : Nat) (s : State) : exec (.xor dst src) s =
    .next (endExecute .ok (writeReg dst (readReg s dst ^^^ readReg s src) s)) := rfl

theorem exec_not (ds : Nat) (s : State) : exec (.not ds) s =
    .next (endExecute .ok (writeReg ds (Word.allOnes s.cfg.registerBits ^^^ readReg s ds) s)) := rfl

theorem exec_add_imm (ds v : Nat) (s : State) : exec (.add ds (.imm v)) s =
    .next (endExecute .ok (writeReg ds (readReg s ds + v) s)) := rfl

/-- Writing to a register what it holds changes nothing. -/
theorem writeReg_readReg_self {s : State} (h : s.Wf) {d : Nat} (hd : d < s.cfg.registerCount) :
    writeReg d (readReg s d) s = s := by
  have hlt := readReg_lt h d
  obtain ⟨⟨hlen, -⟩, -⟩ := h
  have hget : readReg s d = s.regs[d] := by simp [readReg, hlen, hd]
  rw [writeReg, Word.trunc, Nat.mod_eq_of_lt hlt, hget, List.set_getElem_self]

/-- The register that an instruction ends by writing. -/
theorem readReg_endWrite_self {s : State} (h : s.Wf) {d : Nat} (hd : d < s.cfg.registerCount)
    (st : Status) (v : Nat) :
    readReg (endExecute st (writeReg d v s)) d = v % 2 ^ s.cfg.registerBits := by
  obtain ⟨⟨hlen, -⟩, -⟩ := h
  rw [readReg_endExecute, readReg_writeReg_self (hlen ▸ hd)]

theorem changesOnlyRegister_endWrite (d v : Nat) (st : Status) (s : State) :
    ChangesOnlyRegister d s (endExecute st (writeReg d v s)) :=
  ⟨fun _ hi => readReg_writeReg_ne hi v s, fun _ => rfl, rfl, rfl⟩

theorem ChangesOnlyRegister.trans {d : Nat} {s t u : State} (h : ChangesOnlyRegister d s t)
    (h' : ChangesOnlyRegister d t u) : ChangesOnlyRegister d s u := by
  obtain ⟨hreg, hmem, hcfg, hcalls⟩ := h
  obtain ⟨hreg', hmem', hcfg', hcalls'⟩ := h'
  exact ⟨fun i hi => (hreg' i hi).trans (hreg i hi), fun a => (hmem' a).trans (hmem a),
    hcfg'.trans hcfg, hcalls'.trans hcalls⟩

/-- The complement of a word is its distance from the all-ones word. -/
theorem allOnes_xor {r x : Nat} (h : x < 2 ^ r) : Word.allOnes r ^^^ x = 2 ^ r - (x + 1) := by
  refine Nat.eq_of_testBit_eq fun i => ?_
  rw [Nat.testBit_two_pow_sub_succ h, Word.allOnes, Nat.testBit_xor, Nat.testBit_two_pow_sub_one]
  by_cases hi : i < r
  · simp [hi]
  · have hle : 2 ^ r ≤ 2 ^ i := Nat.pow_le_pow_right (by decide) (by omega)
    simp [hi, Nat.testBit_lt_two_pow (h.trans_le hle)]

/-- `nop`: a register OR itself is the register. -/
theorem exec_or_self {s : State} (h : s.Wf) {d : Nat} (hd : d < s.cfg.registerCount) :
    exec (.or d d) s = .next (endExecute .ok s) := by
  rw [exec_or, Nat.or_self, writeReg_readReg_self h hd]

/-- `clr`: a register XOR itself is 0. -/
theorem exec_xor_self (d : Nat) (s : State) :
    exec (.xor d d) s = .next (endExecute .ok (writeReg d 0 s)) := by
  rw [exec_xor, Nat.xor_self]

/-- Settles O43: each expansion is a sequence of register writes of one register, whose value is
computed write by write. -/
theorem pseudoInstructionsDoTheirWork : Obligations.PseudoInstructionsDoTheirWork := by
  intro s d r h hd hr
  have hend : ∀ v, (endExecute .ok (writeReg d v s)).Wf :=
    fun v => endExecute_wf (writeReg_wf h d v) .ok
  have hwrite : ∀ v, readReg (endExecute .ok (writeReg d v s)) d = v % 2 ^ s.cfg.registerBits :=
    readReg_endWrite_self h hd .ok
  have hframe := changesOnlyRegister_endWrite d
  refine ⟨⟨_, exec_or_self h (by omega), rfl, rfl⟩,
    ⟨_, exec_xor_self d s, (hwrite 0).trans (Nat.zero_mod _), hframe 0 .ok s⟩,
    fun hdr => ?mov, ?neg⟩
  case mov =>
    refine ⟨_, _, exec_xor_self d s, exec_or d r _, ?_, (hframe _ _ s).trans (hframe _ _ _)⟩
    rw [readReg_endWrite_self (hend 0) hd, hwrite, readReg_endExecute,
      readReg_writeReg_ne (Ne.symm hdr), Nat.zero_mod, Nat.zero_or]
    exact Nat.mod_eq_of_lt (readReg_lt h r)
  case neg =>
    refine ⟨_, _, exec_not d s, exec_add_imm d 1 _, ?_, (hframe _ _ s).trans (hframe _ _ _)⟩
    have hlt := readReg_lt h d
    rw [readReg_endWrite_self (hend _) hd, hwrite, allOnes_xor hlt, endExecute_cfg, writeReg_cfg,
      Nat.mod_eq_of_lt (by omega : 2 ^ s.cfg.registerBits - (readReg s d + 1) < _),
      show 2 ^ s.cfg.registerBits - (readReg s d + 1) + 1 = 2 ^ s.cfg.registerBits - readReg s d by
        omega]

end Sys2Proof.Machine

/-! PROOFS. `load` and `store` (41_load_store.md): the full and the partial access of each, and what
a store and a load of one address do to each other. -/

namespace Sys2Proof.Machine

/-! ## Full and partial accesses (20_memory.md R48 to R50) -/

theorem accessStatus_of_full {c : Config} {ea : Nat} (h : ea ≤ c.memorySize - c.registerBytes) :
    accessStatus c ea = .ok := if_pos h

theorem accessStatus_of_partial {c : Config} {ea : Nat} (h : c.memorySize - c.registerBytes < ea) :
    accessStatus c ea = .lastMemoryByte := if_neg (by omega)

theorem accessCount_of_partial {c : Config} {ea : Nat} (h : c.memorySize - c.registerBytes < ea) :
    accessCount c ea = c.memorySize - ea := Nat.min_eq_right (by omega)

/-- A partial access moves at least one byte and fewer than a register has. -/
theorem partialCount_bounds {s : State} {base off : Nat}
    (h : s.cfg.memorySize - s.cfg.registerBytes < effectiveAddress s base off) :
    1 ≤ s.cfg.memorySize - effectiveAddress s base off ∧
      s.cfg.memorySize - effectiveAddress s base off < s.cfg.registerBytes := by
  have := effectiveAddress_lt s base off
  omega

/-! ## What a load and a store leave in the state -/

/-- The destination of a `load` holds the value of the bytes read: they fit in a register. -/
theorem load_readReg {s t : State} (h : s.Wf) {dst base off : Nat}
    (hi : (Instr.load dst base off).wellFormed s.cfg = true)
    (ht : exec (.load dst base off) s = .next t) :
    readReg t dst = memRead s.mem (effectiveAddress s base off)
      (accessCount s.cfg (effectiveAddress s base off)) := by
  rw [exec_load] at ht
  cases ht
  rw [readReg_endWrite_self h (load_dst_lt hi), Nat.mod_eq_of_lt (memRead_accessCount_lt _ _ _ _)]

/-- Each byte of the source that fits stands at its place after a `store`. -/
theorem store_readByte_written {s t : State} (h : s.Wf) {addr src off : Nat}
    (ht : exec (.store addr src off) s = .next t) {k : Nat}
    (hk : k < accessCount s.cfg (effectiveAddress s addr off)) :
    readByte t.mem (effectiveAddress s addr off + k) = byteOf (readReg s src) k := by
  rw [store_readByte h ht, if_pos (by omega), Nat.add_sub_cancel_left]

/-- What `store` does, byte by byte: the low bytes of the source that fit are written from the
effective address on, and nothing else changes. -/
theorem store_effect {s : State} (h : s.Wf) (addr src off : Nat) :
    ∃ t, exec (.store addr src off) s = .next t ∧
      t.returned = some (accessStatus s.cfg (effectiveAddress s addr off)) ∧
      (∀ k, k < accessCount s.cfg (effectiveAddress s addr off) →
        readByte t.mem (effectiveAddress s addr off + k) = byteOf (readReg s src) k) ∧
      ChangesOnlyBytes (effectiveAddress s addr off)
        (accessCount s.cfg (effectiveAddress s addr off)) s t := by
  have ht := exec_store addr src off s
  refine ⟨_, ht, rfl, fun k hk => store_readByte_written h ht hk, fun i => ?_, fun x hx => ?_,
    rfl, rfl⟩
  · rw [readReg_endExecute, readReg_storeBytes]
  · rw [store_readByte h ht, if_neg (by omega)]

/-! ## The obligations: full and partial accesses -/

/-- Settles O23: `load_effect` where the access moves a whole register. -/
theorem loadFullAccess : Obligations.LoadFullAccess := by
  intro s dst base off h hi ea (hfull : effectiveAddress s base off ≤ _)
  obtain ⟨t, ht, hret, hbytes, hframe⟩ := load_effect h hi
  rw [accessStatus_of_full hfull] at hret
  rw [accessCount_of_full hfull] at hbytes
  obtain ⟨hcfg, -⟩ := exec_frame ht
  exact ⟨t, ht, hret, fun k hk => (hbytes k).trans (if_pos hk),
    hcfg ▸ readReg_lt (exec_wf h ht) dst, hframe⟩

/-- Settles O24: `load_effect` where the access ends with memory. -/
theorem loadPartialAccess : Obligations.LoadPartialAccess := by
  intro s dst base off h hi ea n (hpart : _ < effectiveAddress s base off)
  obtain ⟨hpos, hlt⟩ := partialCount_bounds hpart
  obtain ⟨t, ht, hret, hbytes, hframe⟩ := load_effect h hi
  rw [accessStatus_of_partial hpart] at hret
  rw [accessCount_of_partial hpart] at hbytes
  exact ⟨hpos, hlt, t, ht, hret, fun k hk => (hbytes k).trans (if_pos hk),
    fun k hk => (hbytes k).trans (if_neg (Nat.not_lt.mpr hk)), hframe⟩

/-- Settles O25: `store_effect` where the access moves a whole register. -/
theorem storeFullAccess : Obligations.StoreFullAccess := by
  intro s addr src off h _ ea (hfull : effectiveAddress s addr off ≤ _)
  have hstore := store_effect h addr src off
  rwa [accessStatus_of_full hfull, accessCount_of_full hfull] at hstore

/-- Settles O26: `store_effect` where the access ends with memory. -/
theorem storePartialAccess : Obligations.StorePartialAccess := by
  intro s addr src off h _ ea n (hpart : _ < effectiveAddress s addr off)
  obtain ⟨hpos, hlt⟩ := partialCount_bounds hpart
  have hstore := store_effect h addr src off
  rw [accessStatus_of_partial hpart, accessCount_of_partial hpart] at hstore
  exact ⟨hpos, hlt, hstore⟩

/-! ## The obligations: a store and a load of one address (41_load_store.md R90) -/

/-- A load of the address just stored to reads the stored register's low bytes. -/
theorem memRead_after_store {s t : State} (h : s.Wf) {addr src off : Nat}
    (ht : exec (.store addr src off) s = .next t) :
    memRead t.mem (effectiveAddress s addr off) (accessCount s.cfg (effectiveAddress s addr off)) =
      readReg s src % 2 ^ (8 * accessCount s.cfg (effectiveAddress s addr off)) :=
  memRead_eq_mod fun _ hk => store_readByte_written h ht hk

/-- Settles O28: the load reads back what the store wrote (`memRead_after_store`), which is the
whole register when all its bytes fit. -/
theorem storeThenLoadReturnsRegister : Obligations.StoreThenLoadReturnsRegister := by
  intro s t addr src off dst base off' h _ hload ea ht hea
  obtain ⟨hcfg, -⟩ := exec_frame ht
  have hwf := exec_wf h ht
  obtain ⟨u, hu, hret, -⟩ := load_effect hwf (hcfg ▸ hload)
  have hval : readReg u dst = readReg s src % 2 ^ (8 * accessCount s.cfg ea) := by
    rw [load_readReg hwf (hcfg ▸ hload) hu, hcfg, hea, memRead_after_store h ht]
  have hstatus := store_returned ht
  rw [hcfg, hea] at hret
  refine ⟨u, hu, hret.trans hstatus.symm, fun hfull => ⟨?_, ?_⟩, fun hpart => ⟨?_, ?_⟩⟩
  · rw [hstatus, accessStatus_of_full hfull]
  · obtain ⟨-, -, hR, -⟩ := validConfigurationFitsFormats s.cfg
    rw [hval, accessCount_of_full hfull, ← hR]
    exact Nat.mod_eq_of_lt (readReg_lt h src)
  · rw [hstatus, accessStatus_of_partial hpart]
  · rw [hval, accessCount_of_partial hpart]

/-- Settles O29: the bytes that the store writes are those that the load read there (`load_effect`),
and as many. -/
theorem loadThenStoreKeepsMemory : Obligations.LoadThenStoreKeepsMemory := by
  intro s t dst base off addr off' h hload _ ht hea
  obtain ⟨t', ht', -, hbytes, -, hmem, hcfg, -⟩ := load_effect h hload
  obtain rfl : t = t' := by rw [ht] at ht'; cases ht'; rfl
  have hu := exec_store addr dst off' t
  refine ⟨_, hu, fun x => ?_⟩
  rw [store_readByte (exec_wf h ht) hu, hcfg, hea]
  split
  case isTrue hx =>
    obtain ⟨hle, hlt⟩ := hx
    rw [hbytes, if_pos (by omega), Nat.add_sub_cancel' hle]
  case isFalse => exact hmem x

end Sys2Proof.Machine

/-! PROOFS. `load_immediate` (42_load_immediate.md): the word that replacing one half of a register
gives, and the word that replacing one half after the other gives. -/

namespace Sys2Proof.Machine

/-! ## The halves of a word -/

/-- The mask of the low half keeps the low half. -/
theorem and_allOnes (w h : Nat) : w &&& Word.allOnes h = w % 2 ^ h :=
  Nat.and_two_pow_sub_one_eq_mod w h

/-- The mask of the high half keeps the high half, in its place. -/
theorem and_highMask {r h w : Nat} (hr : h ≤ r) (hw : w < 2 ^ r) :
    w &&& (Word.allOnes r ^^^ Word.allOnes h) = (w / 2 ^ h) <<< h := by
  refine Nat.eq_of_testBit_eq fun i => ?_
  simp only [Word.allOnes, Nat.testBit_and, Nat.testBit_xor, Nat.testBit_two_pow_sub_one,
    Nat.testBit_shiftLeft, Nat.testBit_div_two_pow]
  by_cases hlow : i < h
  · simp [hlow, hlow.trans_le hr]
  · by_cases hir : i < r
    · simp [hlow, hir, Nat.not_lt.mp hlow]
    · have hbit : w.testBit i = false :=
        Nat.testBit_lt_two_pow (hw.trans_le (Nat.pow_le_pow_right (by decide) (by omega)))
      simp [hlow, hbit, Nat.not_lt.mp hlow]

/-- The word `old` with its upper or lower part, cut at bit `h`, replaced by `data`. -/
def replaceHalf (h : Nat) (isUpper : Bool) (data old : Nat) : Nat :=
  if isUpper then data * 2 ^ h + old % 2 ^ h else old / 2 ^ h * 2 ^ h + data

theorem replaceHalf_upper (h data old : Nat) :
    replaceHalf h true data old = data * 2 ^ h + old % 2 ^ h := rfl

theorem replaceHalf_lower (h data old : Nat) :
    replaceHalf h false data old = old / 2 ^ h * 2 ^ h + data := rfl

/-- Two halves of `h` bits make a word of `2 * h` bits. -/
theorem halves_lt {h hi lo : Nat} (hhi : hi < 2 ^ h) (hlo : lo < 2 ^ h) :
    hi * 2 ^ h + lo < 2 ^ (2 * h) := by
  calc hi * 2 ^ h + lo < (hi + 1) * 2 ^ h := by rw [Nat.add_one_mul]; omega
    _ ≤ 2 ^ h * 2 ^ h := Nat.mul_le_mul_right _ hhi
    _ = 2 ^ (2 * h) := by rw [two_mul, pow_add]

theorem replaceHalf_lt {h data old : Nat} (hdata : data < 2 ^ h) (hold : old < 2 ^ (2 * h))
    (isUpper : Bool) : replaceHalf h isUpper data old < 2 ^ (2 * h) := by
  cases isUpper with
  | true => exact halves_lt hdata (Nat.mod_lt _ (Nat.two_pow_pos h))
  | false =>
    have hhigh : old / 2 ^ h < 2 ^ h := by
      rwa [Nat.div_lt_iff_lt_mul (Nat.two_pow_pos h), ← pow_add, ← two_mul]
    exact halves_lt hhigh hdata

/-- After both halves are replaced nothing is left of the old word, whichever half came first. -/
theorem replaceHalf_replaceHalf {h x y : Nat} (hx : x < 2 ^ h) (isUpper : Bool) (old : Nat) :
    replaceHalf h (!isUpper) y (replaceHalf h isUpper x old) =
      if isUpper then x * 2 ^ h + y else y * 2 ^ h + x := by
  cases isUpper with
  | true =>
    have hhigh : (x * 2 ^ h + old % 2 ^ h) / 2 ^ h = x := by
      rw [Nat.mul_comm, Nat.mul_add_div (Nat.two_pow_pos h),
        Nat.div_eq_of_lt (Nat.mod_lt _ (Nat.two_pow_pos h)), Nat.add_zero]
    rw [Bool.not_true, replaceHalf_upper, replaceHalf_lower, hhigh, if_pos rfl]
  | false =>
    have hlow : (old / 2 ^ h * 2 ^ h + x) % 2 ^ h = x := by
      rw [Nat.mul_add_mod', Nat.mod_eq_of_lt hx]
    rw [Bool.not_false, replaceHalf_lower, replaceHalf_upper, hlow, if_neg Bool.false_ne_true]

/-! ## The instruction -/

theorem loadImmediate_wellFormed_iff {c : Config} {dst data : Nat} {isUpper : Bool} :
    (Instr.loadImmediate dst isUpper data).wellFormed c = true ↔
      dst < c.registerCount ∧ data < 2 ^ c.halfBits := by
  simp only [Instr.wellFormed, registerInRange, Bool.and_eq_true, decide_eq_true_iff]

/-- `load_immediate` always ends with `OK`, and its masks and shift replace one half of the
destination (42_load_immediate.md R91). -/
theorem exec_loadImmediate {s : State} (h : s.Wf) (dst : Nat) (isUpper : Bool) {data : Nat}
    (hdata : data < 2 ^ s.cfg.halfBits) :
    exec (.loadImmediate dst isUpper data) s =
      .next (endExecute .ok
        (writeReg dst (replaceHalf s.cfg.halfBits isUpper data (readReg s dst)) s)) := by
  obtain ⟨-, -, -, hR, -⟩ := validConfigurationFitsFormats s.cfg
  have hmod : readReg s dst % 2 ^ s.cfg.halfBits < 2 ^ s.cfg.halfBits :=
    Nat.mod_lt _ (Nat.two_pow_pos _)
  cases isUpper with
  | true =>
    simp only [exec, execLoadImmediate, returnStatus, if_true]
    rw [and_allOnes, Nat.or_comm, ← Nat.shiftLeft_add_eq_or_of_lt hmod, Nat.shiftLeft_eq,
      replaceHalf_upper]
  | false =>
    simp only [exec, execLoadImmediate, returnStatus, Bool.false_eq_true, if_false]
    rw [and_highMask (by omega) (readReg_lt h dst), ← Nat.shiftLeft_add_eq_or_of_lt hdata,
      Nat.shiftLeft_eq, replaceHalf_lower]

/-- What `load_immediate` does: it replaces one half of the destination and changes nothing else. -/
theorem loadImmediate_effect {s : State} (h : s.Wf) {dst data : Nat} {isUpper : Bool}
    (hi : (Instr.loadImmediate dst isUpper data).wellFormed s.cfg = true) :
    ∃ t, exec (.loadImmediate dst isUpper data) s = .next t ∧ t.returned = some .ok ∧
      readReg t dst = replaceHalf s.cfg.halfBits isUpper data (readReg s dst) ∧
      ChangesOnlyRegister dst s t := by
  obtain ⟨hdst, hdata⟩ := loadImmediate_wellFormed_iff.mp hi
  obtain ⟨-, -, -, hR, -⟩ := validConfigurationFitsFormats s.cfg
  refine ⟨_, exec_loadImmediate h dst isUpper hdata, rfl, ?_,
    changesOnlyRegister_endWrite dst _ .ok s⟩
  rw [readReg_endWrite_self h hdst, hR]
  exact Nat.mod_eq_of_lt (replaceHalf_lt hdata (hR ▸ readReg_lt h dst) isUpper)

/-- Settles O30: `loadImmediate_effect`, with `replaceHalf` written out. -/
theorem loadImmediateReplacesOneHalf : Obligations.LoadImmediateReplacesOneHalf :=
  fun _ _ _ _ h hi => loadImmediate_effect h hi

/-- One half and then the other: the register holds both, and nothing else has changed. -/
theorem loadImmediate_pair {s : State} (h : s.Wf) {d x y : Nat} {isUpper : Bool}
    (hx : (Instr.loadImmediate d isUpper x).wellFormed s.cfg = true)
    (hy : (Instr.loadImmediate d (!isUpper) y).wellFormed s.cfg = true) :
    ∃ t u, exec (.loadImmediate d isUpper x) s = .next t ∧
      exec (.loadImmediate d (!isUpper) y) t = .next u ∧
      readReg u d = (if isUpper then x * 2 ^ s.cfg.halfBits + y else y * 2 ^ s.cfg.halfBits + x) ∧
      ChangesOnlyRegister d s u := by
  obtain ⟨t, ht, -, hvalt, hframet⟩ := loadImmediate_effect h hx
  obtain ⟨hcfg, -⟩ := exec_frame ht
  obtain ⟨u, hu, -, hvalu, hframeu⟩ := loadImmediate_effect (exec_wf h ht) (hcfg ▸ hy)
  obtain ⟨-, hxlt⟩ := loadImmediate_wellFormed_iff.mp hx
  refine ⟨t, u, ht, hu, ?_, hframet.trans hframeu⟩
  rw [hvalu, hcfg, hvalt, replaceHalf_replaceHalf hxlt]

/-- Settles O31: `loadImmediate_pair`, first with the lower half first and then with the upper. -/
theorem loadImmediatePairBuildsWord : Obligations.LoadImmediatePairBuildsWord :=
  fun _ _ _ _ h ha hb => ⟨loadImmediate_pair h ha hb, loadImmediate_pair h hb ha⟩

end Sys2Proof.Machine

/-! PROOFS. Arithmetic and shift (43_arith_shift.md): each instruction on an operand that denotes a
value, the results modulo `2^R`, and the range of the shift amounts. -/

namespace Sys2Proof

/-! ## Operands and amounts -/

/-- The destination of a well-formed instruction is a register (10_state.md R24). -/
theorem destination_lt_of_wellFormed {c : Config} {i : Instr} {d : Nat}
    (h : i.wellFormed c = true) (hd : Machine.destination i = some d) : d < c.registerCount := by
  cases i with
  | store => cases hd
  | not ds =>
    cases hd
    exact of_decide_eq_true h
  | loadImmediate | add | sub | mul | shr | shl | and | or | xor =>
    cases hd
    exact of_decide_eq_true (Bool.and_eq_true_iff.mp h).1
  | load =>
    cases hd
    exact Machine.load_dst_lt h

theorem two_mul_lt_two_pow_pred {h : Nat} (hh : 8 ≤ h) : 2 * h < 2 ^ (h - 1) := by
  induction h, hh using Nat.le_induction with
  | base => decide
  | succ n hn ih =>
    have hpow : 2 ^ n = 2 * 2 ^ (n - 1) := by rw [← pow_succ', Nat.sub_add_cancel (by omega)]
    rw [Nat.add_sub_cancel, hpow]
    omega

/-- Half a register width less one bit already counts beyond the register width, because a valid
register has at least 16 bits (10_state.md R22). -/
theorem registerBits_lt_two_pow (c : Config) {k : Nat} (hk : c.halfBits - 1 ≤ k) :
    c.registerBits < 2 ^ k := by
  obtain ⟨h16, -, -, hR, -⟩ := validConfigurationFitsFormats c
  calc c.registerBits = 2 * c.halfBits := hR
    _ < 2 ^ (c.halfBits - 1) := two_mul_lt_two_pow_pred (by omega)
    _ ≤ 2 ^ k := Nat.pow_le_pow_right (by decide) hk

/-- Every amount up to `R` is in the low half of the immediate field's range. -/
theorem shiftAmount_wellFormed {c : Config} {n : Nat} (hn : n ≤ c.registerBits) :
    (Operand.imm n).wellFormed c = true := by
  obtain ⟨-, -, -, -, -, -, -, -, -, -, -, -, hWa⟩ := validConfigurationFitsFormats c
  have hlow : n < 2 ^ (c.operandBits - 1) :=
    hn.trans_lt (registerBits_lt_two_pow c (by omega))
  exact Bool.or_eq_true_iff.mpr (.inl (decide_eq_true hlow))

/-- A word with its top bit set, read unsigned, is more than `R`. -/
theorem registerBits_lt_of_testBit_top {c : Config} {w : Nat}
    (h : w.testBit (c.registerBits - 1) = true) : c.registerBits < w := by
  obtain ⟨-, -, -, hR, -⟩ := validConfigurationFitsFormats c
  exact (registerBits_lt_two_pow c (by omega)).trans_le (Nat.ge_two_pow_of_testBit h)

/-- A remainder modulo `2^r` is a word as it stands. -/
theorem emod_toNat_mod (r : Nat) (x : Int) :
    (((x % 2 ^ r).toNat % 2 ^ r : Nat) : Int) = x % 2 ^ r := by
  have hpos : (0 : Int) < 2 ^ r := by positivity
  rw [Int.natCast_emod, Int.toNat_of_nonneg (Int.emod_nonneg x hpos.ne'), Nat.cast_pow,
    Nat.cast_ofNat, Int.emod_emod]

end Sys2Proof

namespace Sys2Proof.Machine

/-! ## Each instruction on an operand that denotes `v` (43_arith_shift.md R93) -/

section
variable {s : State} {o : Operand} {v : Nat}

theorem exec_add (ds : Nat) (ho : OperandDenotes s o v) : exec (.add ds o) s =
    .next (endExecute .ok (writeReg ds (readReg s ds + v) s)) := withOperand_denotes ho _

theorem exec_sub (ds : Nat) (ho : OperandDenotes s o v) : exec (.sub ds o) s =
    .next (endExecute .ok
      (writeReg ds (((readReg s ds : Int) - v) % 2 ^ s.cfg.registerBits).toNat s)) :=
  withOperand_denotes ho _

theorem exec_mul (ds : Nat) (ho : OperandDenotes s o v) : exec (.mul ds o) s =
    .next (endExecute .ok (writeReg ds (readReg s ds * v) s)) := withOperand_denotes ho _

theorem exec_shr_of_le (ds : Nat) (ho : OperandDenotes s o v) (hv : v ≤ s.cfg.registerBits) :
    exec (.shr ds o) s = .next (endExecute .ok (writeReg ds (readReg s ds / 2 ^ v) s)) :=
  (withOperand_denotes ho _).trans (if_neg hv.not_gt)

theorem exec_shl_of_le (ds : Nat) (ho : OperandDenotes s o v) (hv : v ≤ s.cfg.registerBits) :
    exec (.shl ds o) s = .next (endExecute .ok (writeReg ds (readReg s ds * 2 ^ v) s)) :=
  (withOperand_denotes ho _).trans (if_neg hv.not_gt)

theorem exec_shr_of_gt (ds : Nat) (ho : OperandDenotes s o v) (hv : s.cfg.registerBits < v) :
    exec (.shr ds o) s = .next (endExecute .shiftRange s) :=
  (withOperand_denotes ho _).trans (if_pos hv)

theorem exec_shl_of_gt (ds : Nat) (ho : OperandDenotes s o v) (hv : s.cfg.registerBits < v) :
    exec (.shl ds o) s = .next (endExecute .shiftRange s) :=
  (withOperand_denotes ho _).trans (if_pos hv)

end

/-- An instruction that ends with `OK` after writing `v` to its destination leaves `v` mod `2^R`
there and changes no other register and no memory. -/
theorem completes_of_exec_eq_endWrite {s : State} (h : s.Wf) {i : Instr} {d v : Nat}
    (hi : i.wellFormed s.cfg = true) (hd : destination i = some d)
    (he : exec i s = .next (endExecute .ok (writeReg d v s))) :
    ∃ t, exec i s = .next t ∧ t.returned = some .ok ∧
      readReg t d = v % 2 ^ s.cfg.registerBits ∧ ChangesOnlyRegister d s t :=
  ⟨_, he, rfl, readReg_endWrite_self h (destination_lt_of_wellFormed hi hd) .ok v,
    changesOnlyRegister_endWrite d v .ok s⟩

/-! ## The obligations: add, sub, mul -/

/-- Settles O32: the write reduces the sum. -/
theorem addWrapsAndCompletes : Obligations.AddWrapsAndCompletes :=
  fun _ ds _ _ h hi ho => completes_of_exec_eq_endWrite h hi rfl (exec_add ds ho)

/-- Settles O33: the difference is reduced as an integer, and the write leaves that remainder. -/
theorem subWrapsAndCompletes : Obligations.SubWrapsAndCompletes := by
  intro s ds o v h hi ho
  obtain ⟨t, ht, hret, hval, hframe⟩ := completes_of_exec_eq_endWrite h hi rfl (exec_sub ds ho)
  exact ⟨t, ht, hret, by rw [hval, emod_toNat_mod], hframe⟩

/-- Settles O34: the write keeps the low `R` bits of the product. -/
theorem mulWrapsAndCompletes : Obligations.MulWrapsAndCompletes :=
  fun _ ds _ _ h hi ho => completes_of_exec_eq_endWrite h hi rfl (exec_mul ds ho)

/-- Settles O35: a word and its signed reading are the same mod `2^R` (`signed_emod`), and so are
their products. -/
theorem mulIgnoresSignedness : Obligations.MulIgnoresSignedness := by
  intro s ds o v h hi ho
  obtain ⟨t, ht, -, hval, -⟩ := mulWrapsAndCompletes s ds o v h hi ho
  refine ⟨t, ht, ?_⟩
  rw [hval, Int.mul_emod, signed_emod, signed_emod, ← Int.mul_emod]
  push_cast
  rfl

/-! ## The obligations: shr and shl -/

/-- Settles O36: a word shifted right is still a word, so the write leaves it as it is. -/
theorem shrInRangeCompletes : Obligations.ShrInRangeCompletes := by
  intro s ds o v h hi ho hv
  obtain ⟨t, ht, hret, hval, hframe⟩ :=
    completes_of_exec_eq_endWrite h hi rfl (exec_shr_of_le ds ho hv)
  have hlt : readReg s ds / 2 ^ v < 2 ^ s.cfg.registerBits :=
    (Nat.div_le_self _ _).trans_lt (readReg_lt h ds)
  exact ⟨t, ht, hret, by rw [hval, Nat.mod_eq_of_lt hlt], hframe⟩

/-- Settles O37: the write truncates the shifted value. -/
theorem shlInRangeCompletes : Obligations.ShlInRangeCompletes :=
  fun _ ds _ _ h hi ho hv => completes_of_exec_eq_endWrite h hi rfl (exec_shl_of_le ds ho hv)

/-- Settles O38: the range check comes before any write, and a hard error ends in `Idle`. -/
theorem shiftOutOfRangeChangesNothing : Obligations.ShiftOutOfRangeChangesNothing :=
  fun _ ds _ _ ho hv =>
    ⟨⟨_, exec_shr_of_gt ds ho hv, rfl, rfl, rfl, rfl, rfl, rfl, rfl⟩,
      ⟨_, exec_shl_of_gt ds ho hv, rfl, rfl, rfl, rfl, rfl, rfl, rfl⟩⟩

/-- Settles O39: a negative immediate is out of range when read unsigned, and 0 to `R` fit the
non-negative half of the immediate field. -/
theorem negativeShiftImmediateIsRejected : Obligations.NegativeShiftImmediateIsRejected := by
  refine ⟨fun s ds w _ htop => ?_, fun _ _ hn => shiftAmount_wellFormed hn⟩
  obtain ⟨⟨t, ht, hret, -, -, hsame⟩, ⟨u, hu, hret', -, -, hsame'⟩⟩ :=
    shiftOutOfRangeChangesNothing s ds (.imm w) w rfl (registerBits_lt_of_testBit_top htop)
  exact ⟨⟨t, ht, hret, hsame⟩, ⟨u, hu, hret', hsame'⟩⟩

end Sys2Proof.Machine

/-! PROOFS. The bitwise instructions (44_bitwise.md): their value bit by bit, and the complement
applied twice. -/

namespace Sys2Proof.Machine

/-! ## and, or and xor -/

theorem exec_and (dst src : Nat) (s : State) : exec (.and dst src) s =
    .next (endExecute .ok (writeReg dst (readReg s dst &&& readReg s src) s)) := rfl

/-- An instruction that ends with `OK` after writing a word to its destination leaves there each bit
of that word: the write has nothing to truncate. -/
theorem completesBitwise_of_exec_eq_endWrite {s : State} (h : s.Wf) {i : Instr} {d v : Nat}
    {bit : Nat → Bool} (hi : i.wellFormed s.cfg = true) (hd : destination i = some d)
    (he : exec i s = .next (endExecute .ok (writeReg d v s))) (hv : v < 2 ^ s.cfg.registerBits)
    (hbit : ∀ k, v.testBit k = bit k) :
    ∃ t, exec i s = .next t ∧ t.returned = some .ok ∧ (∀ k, (readReg t d).testBit k = bit k) ∧
      ChangesOnlyRegister d s t := by
  obtain ⟨t, ht, hret, hval, hframe⟩ := completes_of_exec_eq_endWrite h hi hd he
  rw [Nat.mod_eq_of_lt hv] at hval
  exact ⟨t, ht, hret, fun k => by rw [hval, hbit], hframe⟩

/-- Settles O41: the operation on two words is a word, and the library gives its bits. -/
theorem bitwiseTwoRegisterCompletes : Obligations.BitwiseTwoRegisterCompletes := by
  intro s dst src h hd hs
  have hregs : (registerInRange s.cfg dst && registerInRange s.cfg src) = true := by
    simp [registerInRange, hd, hs]
  have hdst := readReg_lt h dst
  have hsrc := readReg_lt h src
  refine ⟨?and, ?or, ?xor⟩
  case and =>
    exact completesBitwise_of_exec_eq_endWrite h hregs rfl (exec_and dst src s)
      (Nat.and_lt_two_pow _ hsrc) fun k => Nat.testBit_and _ _ k
  case or =>
    exact completesBitwise_of_exec_eq_endWrite h hregs rfl (exec_or dst src s)
      (Nat.or_lt_two_pow hdst hsrc) fun k => Nat.testBit_or _ _ k
  case xor =>
    exact completesBitwise_of_exec_eq_endWrite h hregs rfl (exec_xor dst src s)
      (Nat.xor_lt_two_pow hdst hsrc) fun k => Nat.testBit_xor _ _ k

/-! ## not -/

/-- Of two writes to one register, with the end of an execute between them, the second one stays. -/
theorem regs_writeReg_endWrite (d v w : Nat) (st : Status) (s : State) :
    (writeReg d w (endExecute st (writeReg d v s))).regs = (writeReg d w s).regs :=
  List.set_set _

/-- What `not` leaves in its register: the complement is a word, so the write does not cut it. -/
theorem readReg_endWrite_complement {s : State} (h : s.Wf) {d : Nat} (hd : d < s.cfg.registerCount)
    (st : Status) :
    readReg (endExecute st (writeReg d (Word.allOnes s.cfg.registerBits ^^^ readReg s d) s)) d =
      Word.allOnes s.cfg.registerBits ^^^ readReg s d := by
  have hones : Word.allOnes s.cfg.registerBits < 2 ^ s.cfg.registerBits :=
    Nat.sub_one_lt (Nat.two_pow_pos _).ne'
  rw [readReg_endWrite_self h hd, Nat.mod_eq_of_lt (Nat.xor_lt_two_pow hones (readReg_lt h d))]

/-- Settles O42: the complement is the distance from `ALL1` (`allOnes_xor`), and the second `not`
writes back the word that the first one read. -/
theorem notComplementsAndRestores : Obligations.NotComplementsAndRestores := by
  intro s ds h hd
  have hval := readReg_endWrite_complement h hd .ok
  refine ⟨_, exec_not ds s, rfl, ?value, changesOnlyRegister_endWrite ds _ .ok s,
    _, exec_not ds _, ?restored⟩
  case value => rw [hval, allOnes_xor (readReg_lt h ds), Nat.sub_sub, Nat.add_comm]
  case restored =>
    rw [hval, endExecute_cfg, writeReg_cfg, Nat.xor_xor_cancel_left, endExecute_regs,
      regs_writeReg_endWrite, writeReg_readReg_self h hd]

end Sys2Proof.Machine

/-! PROOFS. The Dispatcher (45_dispatcher.md): what the calls do to the phase, the latch and the
returned status, and the reference driver as a run of the machine. -/

namespace Sys2Proof

/-- Every opcode index below 12 is registered (30_encoding.md R81). -/
theorem decode_of_registered {c : Config} {w : Nat} (h : opcodeIndex c w < 12) :
    ∃ i, decode c w = .ok i :=
  ⟨_, decode_eq_ok_iff.mpr ⟨_, List.getElem?_eq_getElem h, rfl⟩⟩

end Sys2Proof

namespace Sys2Proof.Machine

/-! ## The decode transaction (R106 to R108) -/

/-- A decode reads none of what it writes. -/
theorem decodeTransaction_setLatch (w : Nat) (s : State) (p : Phase) (l : Option Instr)
    (r : Option Status) :
    decodeTransaction w { s with phase := p, latch := l, returned := r } =
      decodeTransaction w s := by
  unfold decodeTransaction
  cases hdec : decode s.cfg w <;> rfl

/-- A decode replaces everything that an earlier decode wrote. -/
theorem decodeTransaction_decodeTransaction (w w' : Nat) (s : State) :
    decodeTransaction w' (decodeTransaction w s) = decodeTransaction w' s := by
  rcases decodeTransaction_cases w s with ⟨i, -, ht⟩ | ⟨e, -, ht⟩ <;>
    rw [ht, decodeTransaction_setLatch w' s]

/-! ## The execute transaction (R109 to R111, R113) -/

theorem executeTransaction_of_decoded {s : State} {i : Instr} (hp : s.phase = .decoded)
    (hl : s.latch = some i) : executeTransaction s = exec i s := by
  simp only [executeTransaction, hp, hl]

/-- Without a valid decoded instruction the status is all that changes (R111). -/
theorem executeTransaction_of_noInstruction {s : State}
    (h : s.phase ≠ .decoded ∨ s.latch = none) :
    executeTransaction s = .next (executeUnknown s) := by
  rcases executeTransaction_cases s with ⟨i, hp, hl, -⟩ | ⟨-, he⟩
  · simp [hp, hl] at h
  · exact he

/-- An accepted decode and then an execute is `exec` of the decoded instruction. -/
theorem executeTransaction_decodeTransaction {s : State} {w : Nat} {i : Instr}
    (h : decode s.cfg w = .ok i) :
    executeTransaction (decodeTransaction w s) = exec i (decodeTransaction w s) := by
  rw [decodeTransaction_of_ok h]
  exact executeTransaction_of_decoded rfl rfl

/-! ## The cycle and the step (R104, R114) -/

theorem cycleTransaction_of_ok {s : State} {w : Nat} {i : Instr} (h : decode s.cfg w = .ok i) :
    cycleTransaction w s =
      exec i { s with phase := .decoded, latch := some i, returned := some .ok } := by
  rw [cycleTransaction, decodeTransaction_of_ok h]
  rfl

theorem cycleTransaction_of_error {s : State} {w : Nat} {e : DecodeError}
    (h : decode s.cfg w = .error e) :
    cycleTransaction w s =
      .next { s with phase := .idle, latch := none, returned := some .decodeUnknown } := by
  rw [cycleTransaction, decodeTransaction_of_error h]
  rfl

theorem step_of_calls_cons {s : State} {c : Call} {rest : List Call} (h : s.calls = c :: rest) :
    step s = performCall c { s with calls := rest } := by
  rw [step, h]

/-- The host's table word is the next cycle of the same state. -/
theorem step_withFetchWord (s : State) (nbits w : Nat) :
    step (s.withFetchWord nbits w) =
      cycleTransaction (w % 2 ^ nbits % 2 ^ s.cfg.registerBits) s := rfl

/-! ## The obligations of the two transactions -/

/-- Settles O46: a decode overwrites an earlier one, and with a registered opcode it fills the latch
that the execute runs. -/
theorem latestDecodeReplacesLatch : Obligations.LatestDecodeReplacesLatch := by
  intro s w w'
  refine ⟨decodeTransaction_decodeTransaction w w' s, fun hreg => ?_⟩
  obtain ⟨i, hdec⟩ := decode_of_registered hreg
  refine ⟨by rw [decodeTransaction_of_ok hdec], i, hdec, ?_⟩
  rw [decodeTransaction_decodeTransaction, executeTransaction_decodeTransaction hdec]

/-- Settles O48, from the three ways in which a meaning ends (`exec_next`). -/
theorem executeEndsByStatusClass : Obligations.ExecuteEndsByStatusClass := by
  intro i s t ht
  rcases exec_next ht with
    ⟨-, -, -, rfl⟩ | ⟨d, v, st, -, hst, rfl⟩ | ⟨-, -, -, -, st, -, -, hst, rfl⟩
  · exact ⟨rfl, rfl, rfl, .inl ⟨rfl, rfl, rfl, rfl, rfl, rfl⟩⟩
  all_goals
    refine ⟨rfl, rfl, rfl, .inr ?_⟩
    rcases hst with rfl | rfl
    · exact ⟨rfl, .inl rfl⟩
    · exact ⟨rfl, .inr rfl⟩

/-- After an execute there is no valid decoded instruction: it was consumed, or there was none. -/
theorem noInstruction_after_executeTransaction {s t : State} (h : executeTransaction s = .next t) :
    t.phase ≠ .decoded ∨ t.latch = none := by
  rcases executeTransaction_cases s with ⟨i, -, -, he⟩ | ⟨hno, he⟩ <;> rw [he] at h
  · obtain ⟨hlatch, -⟩ := executeEndsByStatusClass i s t h
    exact .inr hlatch
  · cases h
    exact hno

/-- Settles O49: after an execute there is no valid decoded instruction. -/
theorem instructionExecutesAtMostOnce : Obligations.InstructionExecutesAtMostOnce :=
  fun _ _ h => executeTransaction_of_noInstruction (noInstruction_after_executeTransaction h)

/-- Settles O47, by `executeTransaction_of_noInstruction`. -/
theorem executeOutsideDecodedReturnsError : Obligations.ExecuteOutsideDecodedReturnsError :=
  fun _ hp => ⟨_, executeTransaction_of_noInstruction (.inl hp), rfl, rfl, rfl, rfl, rfl, rfl, rfl⟩

/-- Settles O44: the step takes the oldest call, and each call is its transaction. -/
theorem stepRunsDecodedInstruction : Obligations.StepRunsDecodedInstruction := by
  refine ⟨?accepted, ?rejected, ?execute, ?decode, ?tableWord⟩
  case accepted =>
    refine fun s w rest i hdec => ⟨fun hc => ?_, fun hc => ?_⟩ <;> rw [step_of_calls_cons hc]
    · exact congrArg Host.Outcome.next (decodeTransaction_of_ok hdec)
    · exact cycleTransaction_of_ok hdec
  case rejected =>
    refine fun s w rest e hdec => ⟨fun hc => ?_, fun hc => ?_⟩ <;> rw [step_of_calls_cons hc]
    · exact congrArg Host.Outcome.next (decodeTransaction_of_error hdec)
    · exact cycleTransaction_of_error hdec
  case execute =>
    intro s rest hc
    rw [step_of_calls_cons hc]
    exact ⟨fun i hp hl => executeTransaction_of_decoded hp hl,
      fun hp => executeTransaction_of_noInstruction (.inl hp), rfl⟩
  case decode => exact fun s w rest hc => step_of_calls_cons hc
  case tableWord =>
    intro s nbits w
    rw [step_withFetchWord]
    exact ⟨fun i hdec => cycleTransaction_of_ok hdec, fun e hdec => cycleTransaction_of_error hdec⟩

/-! ## No meaning reads or writes the pending calls, and none is declined -/

/-- The outcome with `calls` as the pending calls of its state, if it gives one. -/
def setOutcomeCalls (calls : List Call) :
    Host.Outcome State Fault Refusal → Host.Outcome State Fault Refusal
  | .next t => .next { t with calls := calls }
  | .fault f => .fault f
  | .refused r => .refused r

theorem operandValue_setCalls (o : Operand) (s : State) (calls : List Call) :
    operandValue { s with calls := calls } o = operandValue s o := by
  cases o <;> rfl

/-- The operand fetch does not read the pending calls. -/
theorem withOperand_setCalls {calls : List Call} {go go' : Nat → Host.Outcome State Fault Refusal}
    (h : ∀ v, go' v = setOutcomeCalls calls (go v)) (o : Operand) (s : State) :
    withOperand o { s with calls := calls } go' = setOutcomeCalls calls (withOperand o s go) := by
  unfold withOperand
  rw [operandValue_setCalls]
  cases operandValue s o with
  | none => rfl
  | some v => exact h v

/-- A meaning carries the pending calls along. -/
theorem exec_setCalls (i : Instr) (s : State) (calls : List Call) :
    exec i { s with calls := calls } = setOutcomeCalls calls (exec i s) := by
  cases i with
  | load dst base off =>
    rw [exec_load, exec_load]
    rfl
  | store addr src off =>
    rw [exec_store, exec_store]
    rfl
  | loadImmediate dst isUpper data => cases isUpper <;> rfl
  | add ds o | sub ds o | mul ds o => exact withOperand_setCalls (fun _ => by rfl) o s
  | shr ds o | shl ds o =>
    refine withOperand_setCalls (fun v => ?_) o s
    rw [apply_ite (setOutcomeCalls calls)]
    rfl
  | and | or | xor | not => rfl

/-- A cycle carries the pending calls along. -/
theorem cycleTransaction_setCalls (w : Nat) (s : State) (calls : List Call) :
    cycleTransaction w { s with calls := calls } =
      setOutcomeCalls calls (cycleTransaction w s) := by
  cases hdec : decode s.cfg w with
  | ok i =>
    rw [cycleTransaction_of_ok hdec, ← exec_setCalls]
    exact cycleTransaction_of_ok hdec
  | error e =>
    rw [cycleTransaction_of_error hdec]
    exact cycleTransaction_of_error hdec

/-- The operand fetch declines nothing by itself. -/
theorem withOperand_ne_refused {go : Nat → Host.Outcome State Fault Refusal} {r : Refusal}
    (h : ∀ v, go v ≠ .refused r) (o : Operand) (s : State) : withOperand o s go ≠ .refused r := by
  rcases withOperand_cases o s go with ⟨v, -, hv⟩ | ⟨k, -, -, hk⟩
  · rw [hv]
    exact h v
  · rw [hk]
    exact nofun

/-- Every instruction is modelled. -/
theorem exec_ne_refused (i : Instr) (s : State) (r : Refusal) : exec i s ≠ .refused r := by
  cases i with
  | load dst base off => simp [exec_load]
  | store addr src off => simp [exec_store]
  | loadImmediate dst isUpper data => cases isUpper <;> exact nofun
  | add ds o | sub ds o | mul ds o =>
    exact withOperand_ne_refused (fun _ => by nofun) o s
  | shr ds o | shl ds o =>
    refine withOperand_ne_refused (fun v => ?_) o s
    split <;> exact nofun
  | and | or | xor | not => exact nofun

theorem cycleTransaction_ne_refused (w : Nat) (s : State) (r : Refusal) :
    cycleTransaction w s ≠ .refused r := by
  rcases cycleTransaction_cases w s with ⟨i, -, hc⟩ | ⟨e, -, hc⟩ <;> rw [hc]
  · exact exec_ne_refused i _ r
  · exact nofun

/-- A cycle keeps the pending calls and returns a hard error, `OK` or the one warning. -/
theorem cycleTransaction_next {w : Nat} {s t : State} (h : cycleTransaction w s = .next t) :
    t.calls = s.calls ∧ ∃ st, t.returned = some st ∧
      (st.isHardError = true ∨ st = .ok ∨ st = .lastMemoryByte) := by
  rcases cycleTransaction_cases w s with ⟨i, -, hc⟩ | ⟨e, -, hc⟩ <;> rw [hc] at h
  · obtain ⟨-, -, hcalls, ⟨-, hret, -⟩ | ⟨-, hret | hret⟩⟩ := executeEndsByStatusClass _ _ _ h
    · exact ⟨hcalls, _, hret, .inl rfl⟩
    · exact ⟨hcalls, _, hret, .inr (.inl rfl)⟩
    · exact ⟨hcalls, _, hret, .inr (.inr rfl)⟩
  · cases h
    exact ⟨rfl, _, rfl, .inl rfl⟩

/-! ## The reference driver (R114) -/

/-- The state with the cycles of a program issued before the calls already pending. -/
def queueProgram (prog : List Nat) (s : State) : State :=
  { s with calls := prog.map Call.cycle ++ s.calls }

/-- The first step of a queued program is the cycle of its first word. -/
theorem step_queueProgram_cons (w : Nat) (rest : List Nat) (s : State) :
    step (queueProgram (w :: rest) s) =
      setOutcomeCalls (rest.map Call.cycle ++ s.calls) (cycleTransaction w s) :=
  cycleTransaction_setCalls w s _

/-- A step of a queued program that gives a state leaves the rest of the program queued. -/
theorem step_queueProgram_of_next {w : Nat} {s t : State} (h : cycleTransaction w s = .next t)
    (rest : List Nat) :
    step (queueProgram (w :: rest) s) = .next (queueProgram rest t) := by
  obtain ⟨hcalls, -⟩ := cycleTransaction_next h
  rw [step_queueProgram_cons, h, ← hcalls]
  rfl

theorem step_queueProgram_of_fault {w : Nat} {s : State} {f : Fault}
    (h : cycleTransaction w s = .fault f) (rest : List Nat) :
    step (queueProgram (w :: rest) s) = .fault f := by
  rw [step_queueProgram_cons, h]
  rfl

/-- What the driver does with the next word: it stops at a hard error, goes on after `OK` or the
warning, or enters the fault. -/
theorem driverLoop_cons_cases (w : Nat) (rest : List Nat) (k : Nat) (warnings : List (Nat × Status))
    (s : State) :
    (∃ t st, cycleTransaction w s = .next t ∧ t.returned = some st ∧ st.isHardError = true ∧
      driverLoop (w :: rest) k warnings s = .stop k st warnings t) ∨
    (∃ t st, cycleTransaction w s = .next t ∧ (st = .ok ∨ st = .lastMemoryByte) ∧
      driverLoop (w :: rest) k warnings s =
        driverLoop rest (k + 1) (addWarning k st warnings) t) ∨
    (∃ f, cycleTransaction w s = .fault f ∧
      driverLoop (w :: rest) k warnings s = .faulted k f) := by
  cases hc : cycleTransaction w s with
  | next t =>
    obtain ⟨-, st, hret, hhard | hsoft⟩ := cycleTransaction_next hc
    · exact .inl ⟨t, st, rfl, hret, hhard, by simp [driverLoop, hc, hret, hhard]⟩
    · have hno : st.isHardError = false := by rcases hsoft with rfl | rfl <;> rfl
      exact .inr (.inl ⟨t, st, rfl, hsoft, by simp [driverLoop, hc, hret, hno]⟩)
  | fault f => exact .inr (.inr ⟨f, rfl, by simp [driverLoop, hc]⟩)
  | refused r => exact absurd hc (cycleTransaction_ne_refused w s r)

/-- Every status collected is the one warning. -/
def OnlyWarnings (warnings : List (Nat × Status)) : Prop := ∀ x ∈ warnings, x.2 = .lastMemoryByte

theorem addWarning_onlyWarnings {k : Nat} {st : Status} {warnings : List (Nat × Status)}
    (h : OnlyWarnings warnings) (hst : st = .ok ∨ st = .lastMemoryByte) :
    OnlyWarnings (addWarning k st warnings) := by
  rcases hst with rfl | rfl
  · exact h
  · intro x hx
    rcases List.mem_append.mp hx with hx | hx
    · exact h x hx
    · rw [List.mem_singleton.mp hx]

/-- The result of the driver's loop from index `k` is what the machine does with the remaining words
queued, `n` of them performed. -/
def AgreesWithSteps (prog : List Nat) (k : Nat) (s : State) : DriverResult → Prop
  | .done j warnings t =>
    j = k + prog.length ∧ runSteps prog.length (queueProgram prog s) = .next t ∧
      OnlyWarnings warnings
  | .stop j st warnings t =>
    ∃ n, j = k + n ∧ n < prog.length ∧ st.isHardError = true ∧ t.returned = some st ∧
      runSteps (n + 1) (queueProgram prog s) =
        .next { t with calls := (prog.drop (n + 1)).map Call.cycle ++ s.calls } ∧
      OnlyWarnings warnings
  | .faulted j f =>
    ∃ n, j = k + n ∧ n < prog.length ∧ runSteps (n + 1) (queueProgram prog s) = .fault f
  | .declined _ _ => False

/-- A first cycle that gives a state adds one step to the run. -/
theorem AgreesWithSteps.cons {w : Nat} {rest : List Nat} {k : Nat} {s t : State}
    {result : DriverResult} (hc : cycleTransaction w s = .next t)
    (h : AgreesWithSteps rest (k + 1) t result) : AgreesWithSteps (w :: rest) k s result := by
  have hrun : ∀ n, runSteps (n + 1) (queueProgram (w :: rest) s) =
      runSteps n (queueProgram rest t) := fun n => by
    rw [runSteps_succ, step_queueProgram_of_next hc]
  obtain ⟨hcalls, -⟩ := cycleTransaction_next hc
  cases result with
  | done j warnings u =>
    obtain ⟨hj, hu, hw⟩ := h
    exact ⟨by rw [hj, List.length_cons]; omega, (hrun _).trans hu, hw⟩
  | stop j st warnings u =>
    obtain ⟨n, hj, hn, hst, hret, hu, hw⟩ := h
    rw [hcalls] at hu
    exact ⟨n + 1, by omega, Nat.succ_lt_succ hn, hst, hret, (hrun _).trans hu, hw⟩
  | faulted j f =>
    obtain ⟨n, hj, hn, hf⟩ := h
    exact ⟨n + 1, by omega, Nat.succ_lt_succ hn, (hrun _).trans hf⟩
  | declined j r => exact h

/-- The driver's loop agrees with the machine, by induction on the remaining words. -/
theorem driverLoop_agreesWithSteps (prog : List Nat) (k : Nat) {warnings : List (Nat × Status)}
    (hw : OnlyWarnings warnings) (s : State) :
    AgreesWithSteps prog k s (driverLoop prog k warnings s) := by
  induction prog generalizing k warnings s with
  | nil => exact ⟨rfl, rfl, hw⟩
  | cons w rest ih =>
    rcases driverLoop_cons_cases w rest k warnings s with
      ⟨t, st, hc, hret, hhard, hloop⟩ | ⟨t, st, hc, hsoft, hloop⟩ | ⟨f, hc, hloop⟩ <;> rw [hloop]
    · refine ⟨0, rfl, Nat.succ_pos _, hhard, hret, ?_, hw⟩
      obtain ⟨hcalls, -⟩ := cycleTransaction_next hc
      rw [runSteps_succ, step_queueProgram_of_next hc, ← hcalls]
      rfl
    · exact (ih (k + 1) (addWarning_onlyWarnings hw hsoft) t).cons hc
    · refine ⟨0, rfl, Nat.succ_pos _, ?_⟩
      rw [runSteps_succ, step_queueProgram_of_fault hc]

/-- Settles O60: the driver's loop from index 0 with no warnings (`driverLoop_agreesWithSteps`). -/
theorem driverAgreesWithSteps : Obligations.DriverAgreesWithSteps := by
  intro prog s
  have hagree : AgreesWithSteps prog 0 s (runProgram prog s) :=
    driverLoop_agreesWithSteps prog 0 (List.forall_mem_nil _) s
  refine ⟨fun n warnings t h => ?_, fun k st warnings t h => ?_, fun k f h => ?_, fun k r h => ?_⟩ <;>
    rw [h] at hagree
  · obtain ⟨hlen, ht, hw⟩ := hagree
    obtain rfl : n = prog.length := by omega
    exact ⟨rfl, ht, hw⟩
  · obtain ⟨n, hk, hlt, hst, hret, ht, hw⟩ := hagree
    obtain rfl : k = n := by omega
    exact ⟨hlt, hst, hret, ht, hw⟩
  · obtain ⟨n, hk, hlt, hf⟩ := hagree
    obtain rfl : k = n := by omega
    exact ⟨hlt, hf⟩
  · exact hagree

end Sys2Proof.Machine

/-! PROOFS. What stands for exceptions (60_exceptions.md): the number of a status, the model fault of a
register operand that names no register, and the precision of hard errors. -/

namespace Sys2Proof

/-! ## Status numbers (R118) -/

/-- Settles O59: the distance of a number from the top of its class's range is a free value that
gives it. -/
theorem everyAdmissibleStatusNumberIsPossible :
    Obligations.EveryAdmissibleStatusNumberIsPossible := by
  refine fun n => ⟨fun hhard => ⟨(-501 - n).toNat, ?_⟩, fun hwarn => ⟨(-1 - n).toNat, ?_⟩,
    fun hsucc => ⟨0, hsucc.symm⟩⟩ <;>
    simp only [StatusClass.number] <;> omega

end Sys2Proof

namespace Sys2Proof.Machine

/-! ## The model fault (R120, R125) -/

/-- The operand fetch of an index that names no register is the fault, whatever the meaning would go
on with. -/
theorem withOperand_of_noRegister {s : State} {k : Nat} (hk : s.cfg.registerCount ≤ k)
    (go : Nat → Host.Outcome State Fault Refusal) :
    withOperand (.reg k) s go = .fault .badRegisterIndex := by
  simp only [withOperand, operandValue, if_pos hk]

/-- Settles O40: each of the five meanings begins with the operand fetch. -/
theorem badRegisterOperandFaults : Obligations.BadRegisterOperandFaults :=
  fun _ _ _ hk =>
    have fetch := withOperand_of_noRegister hk
    ⟨fetch _, fetch _, fetch _, fetch _, fetch _⟩

theorem exec_of_namesNoRegister {i : Instr} {s : State} (h : namesNoRegister s.cfg i) :
    exec i s = .fault .badRegisterIndex := by
  obtain ⟨ds, k, hk, hi⟩ := h
  obtain ⟨hadd, hsub, hmul, hshr, hshl⟩ := badRegisterOperandFaults s ds k hk
  rcases hi with rfl | rfl | rfl | rfl | rfl
  · exact hadd
  · exact hsub
  · exact hmul
  · exact hshr
  · exact hshl

/-- A meaning that gives a state on every operand value gives one, unless the operand names no
register. -/
theorem withOperand_next_or_noRegister {s : State}
    {go : Nat → Host.Outcome State Fault Refusal} (hgo : ∀ v, ∃ t, go v = .next t) (o : Operand) :
    (∃ t, withOperand o s go = .next t) ∨ ∃ k, s.cfg.registerCount ≤ k ∧ o = .reg k := by
  rcases withOperand_cases o s go with ⟨v, -, hv⟩ | ⟨k, ho, hk, -⟩
  · obtain ⟨t, ht⟩ := hgo v
    exact .inl ⟨t, hv.trans ht⟩
  · exact .inr ⟨k, hk, ho⟩

/-- Every meaning gives a state, unless its operand names no register. -/
theorem exec_next_or_namesNoRegister (i : Instr) (s : State) :
    (∃ t, exec i s = .next t) ∨ namesNoRegister s.cfg i := by
  cases i with
  | load dst base off => exact .inl ⟨_, exec_load dst base off s⟩
  | store addr src off => exact .inl ⟨_, exec_store addr src off s⟩
  | loadImmediate dst isUpper data => cases isUpper <;> exact .inl ⟨_, rfl⟩
  | add ds o | sub ds o | mul ds o =>
    refine (withOperand_next_or_noRegister (fun v => ⟨_, rfl⟩) o).imp_right ?_
    rintro ⟨k, hk, rfl⟩
    exact ⟨ds, k, hk, by simp⟩
  | shr ds o | shl ds o =>
    refine (withOperand_next_or_noRegister (fun v => ?_) o).imp_right ?_
    · split <;> exact ⟨_, rfl⟩
    · rintro ⟨k, hk, rfl⟩
      exact ⟨ds, k, hk, by simp⟩
  | and | or | xor | not => exact .inl ⟨_, rfl⟩

/-- Settles O56: of what a step can do (`step_cases`), only the execution of an instruction can fail to
give a state. -/
theorem stepFaultsExactlyOnBadRegisterOperand :
    Obligations.StepFaultsExactlyOnBadRegisterOperand := by
  refine fun s => ⟨?faults, fun hno => ?steps⟩
  case faults =>
    rintro ⟨i, hi, hbad⟩
    obtain ⟨r, hs⟩ := step_of_nextExecuted_some hi
    rw [hs]
    exact exec_of_namesNoRegister hbad
  case steps =>
    rcases step_cases s with ⟨-, -, hs⟩ | ⟨-, i, r, hi, hs⟩ | ⟨-, -, w, hs⟩ | ⟨-, -, hs⟩
    · exact ⟨_, hs⟩
    · rcases exec_next_or_namesNoRegister i _ with ⟨t, ht⟩ | hbad
      · exact ⟨t, hs.trans ht⟩
      · exact absurd ⟨i, hi, hbad⟩ hno
    · exact ⟨_, hs⟩
    · exact ⟨_, hs⟩

/-! ## Hard errors are precise, a warning is not (R122) -/

/-- A meaning that returns a hard error has written nothing. -/
theorem exec_hardError_changesNothing {i : Instr} {s t : State} {st : Status}
    (ht : exec i s = .next t) (hret : t.returned = some st) (hst : st.isHardError = true) :
    ChangesNothing s t := by
  obtain ⟨-, -, -, ⟨-, -, hsame⟩ | ⟨-, hok | hwarn⟩⟩ := executeEndsByStatusClass i s t ht
  · exact hsame
  · obtain rfl : Status.ok = st := Option.some.inj (hok.symm.trans hret)
    cases hst
  · obtain rfl : Status.lastMemoryByte = st := Option.some.inj (hwarn.symm.trans hret)
    cases hst

/-- A step that returns a hard error takes its call and changes nothing else. -/
theorem step_hardError_changesNothing {s t : State} {st : Status} (ht : step s = .next t)
    (hret : t.returned = some st) (hst : st.isHardError = true) :
    ChangesNothing { s with calls := s.calls.tail } t := by
  cases hi : nextExecuted s with
  | none => exact step_of_nextExecuted_none ht hi
  | some i =>
    obtain ⟨r, hs⟩ := step_of_nextExecuted_some hi
    exact exec_hardError_changesNothing (hs ▸ ht) hret hst

/-- Every register holds the last address, and the next call is the cycle of `store x0, x0, 0`, which
writes the one byte that fits. -/
def storingLastByte : State :=
  { State.reset with
    regs := List.replicate defaultConfig.registerCount 0xFFFF
    calls := [.cycle 0x1000] }

/-- Settles O50: a step with a hard error changes nothing (`step_hardError_changesNothing`), and a
partial store returns the warning after its write. -/
theorem hardErrorsArePrecise : Obligations.HardErrorsArePrecise :=
  ⟨fun _ _ _ _ => step_hardError_changesNothing,
    storingLastByte, _, by decide, rfl, rfl, by decide⟩

end Sys2Proof.Machine

/-! PROOFS. Words of the test vectors (95_test_vectors.md section 3.1). -/

namespace Sys2Proof

/-- Settles O17: each word is in the opcode range of its instruction and holds that instruction's
operands in its fields (`decode_eq_ok_iff_opcodeOf`); `0xC000` is past the last opcode. -/
theorem sampleWordsDecode : Obligations.SampleWordsDecode := by
  refine ⟨?load, ?store, ?loadImmediate, ?addImmediate, ?addRegister, ?and, ?not,
    decode_of_unregistered (by decide)⟩
  all_goals exact decode_eq_ok_iff_opcodeOf.mpr (by decide)

end Sys2Proof
